-- ==== Sys2Proof/Word.lean ====
section
/-! DEFINITION. The value types of the spec (00_scope.md R7, R10): bytes, 32-bit words, pixels, cache slot numbers and
the channel count. -/

namespace Sys2Proof

/-- `u8` of R10. -/
abbrev Byte := BitVec 8

/-- `u32` of R10: the width of COUNT, `npix` and `pos`. -/
abbrev Word32 := BitVec 32

/-- R10: a Pixel is four 8-bit channels; two pixels are equal iff all four channels are. -/
structure Pixel where
  r : Byte
  g : Byte
  b : Byte
  a : Byte
deriving DecidableEq, Repr

/-- A cache slot number, 0..63 (R32). -/
abbrev Slot := Fin 64

/-- The channel count of an encode, `NCH ∈ {3, 4}` (R8): no other value exists. -/
inductive Channels where
  | three
  | four
deriving DecidableEq, Repr

end Sys2Proof
end

