-- ==== Sys2Proof/Machine/Event.lean ====
section
/-! DEFINITION. The block's phases (10_state.md R35) and the events the machine's step reads: what the host, the block or
the outside does next (45_host_interface.md R250). The list of coming events stands in State.inputs, so that one
deterministic step covers every interleaving (log entry 4, DESIGN CHOICE). -/

namespace Sys2Proof.Machine

/-- The six phases of R35. -/
inductive Phase where
  | idle
  | clear
  | accept
  | encode
  | emit
  | done
deriving DecidableEq, Repr

/-- The direction of a bus access. R274 names an access that is both a read and a write. -/
inductive Direction where
  | read
  | write
  | readWrite
deriving DecidableEq, Repr

/-- One host access as the bus presents it: the address less QOIE_BASE, how many bytes it moves, its direction, and the
byte a write carries (a read carries none and this field plays no part in it). -/
structure Access where
  offset : Nat
  width : Nat
  dir : Direction
  data : Byte
deriving DecidableEq, Repr

/-- What happens next. -/
inductive Event where
  /-- The host performs an access (R250). -/
  | access (a : Access)
  /-- The host performs an access while hardware reset is asserted (R274). -/
  | accessInReset (a : Access)
  /-- The block gets a turn: it takes its enabled internal step, if there is one (R250, R272). -/
  | internal
  /-- The block takes its pixel step, and that step emits this chunk (R100, log entry 7). -/
  | chunk (bytes : List Byte)
  /-- Hardware reset (R360). -/
  | reset
deriving DecidableEq, Repr

end Sys2Proof.Machine
end

