-- ==== Sys2Proof/Config.lean ====
section
/-! DEFINITION. The parameters of the spec (00_scope.md R7, R9): the fixed ones and the decided ones as numbers, the
OPEN base address as a constant without a value. MAX_PIXELS is OPEN too: R301 asks for it as an argument within a bound, so the
framing functions take one of the type Config.MaxPixels. -/

namespace Sys2Proof

/-- `RUN_MAX` (R7): the run length at which a run is flushed. -/
def Config.runMax : Nat := 62

/-- `OBUF_DEPTH` (R9): the largest output of one pixel. -/
def Config.obufDepth : Nat := 6

/-- `TAG_RGB` (R9, decision D10; log entry 16). -/
def Config.tagRgb : Byte := 0xFE

/-- `TAG_RGBA` (R9, decision D10; log entry 16). -/
def Config.tagRgba : Byte := 0xFF

/-- `MAGIC` (R9, R304, decision D11): ASCII "qoif" (log entry 16). Host side only. -/
def Config.magic : List Byte := [0x71, 0x6F, 0x69, 0x66]

/-- Bytes of the header (R302, R304). Host side only. -/
def Config.headerSize : Nat := 14

/-- Bytes of the end marker (R302, R308). Host side only. -/
def Config.endMarkerSize : Nat := 8

/-- The largest value MAX_PIXELS may have (R301). Host side only. -/
def Config.maxPixelsCeiling : Nat := 858993454

/-- `MAX_PIXELS` (R301, 93 U3): an argument, and every value of it meets the bound of R301. -/
abbrev Config.MaxPixels := { n : Nat // 1 ≤ n ∧ n ≤ Config.maxPixelsCeiling }

/-- `QOIE_BASE` (R9, R70, decision D4): OPEN, so a constant of which nothing can be proved (log entry 11). -/
opaque Config.qoieBase : Nat

end Sys2Proof
end

