-- ==== Sys2Proof/Syntax.lean ====
section
/-! DEFINITION. The operations of spec/opcode_table.json, one constructor a row: the six chunk kinds a pixel step can
emit, the ten register accesses of the host, the two internal steps of the block. -/

namespace Sys2Proof

inductive Instr where
  /-- INDEX i (R102, R182). -/
  | index (i : Slot)
  /-- DIFF vr,vg,vb (R103, R203): signed differences. -/
  | diff (vr vg vb : Int)
  /-- LUMA vg,vg_r,vg_b (R104, R204): signed differences. -/
  | luma (vg vgr vgb : Int)
  /-- RUN n (R105, R164): n is the run length. -/
  | run (n : Nat)
  /-- RGB r,g,b (R106, R230). -/
  | rgb (r g b : Byte)
  /-- RGBA r,g,b,a (R107, R231). -/
  | rgba (r g b a : Byte)
  /-- RegWrite(0x0, v) (R252, R253). -/
  | wrDataIn (v : Byte)
  /-- RegRead(0x1) (R254, R255). -/
  | rdDataOut
  /-- RegRead(0x2) (R257). -/
  | rdStatus
  /-- RegRead(0x3) (R258). -/
  | rdCtrl
  /-- RegWrite(0x3, v) (R259, R262). -/
  | wrCtrl (v : Byte)
  /-- RegRead(0x4 + j) (R260). -/
  | rdCount (j : Fin 4)
  /-- RegWrite(0x4 + j, v) (R260). -/
  | wrCount (j : Fin 4) (v : Byte)
  /-- RegRead(0x0) (R256). -/
  | rdDataIn
  /-- RegWrite(0x1, v) (R256). -/
  | wrDataOut (v : Byte)
  /-- RegWrite(0x2, v) (R256). -/
  | wrStatus (v : Byte)
  /-- CLEAR-done (R270). -/
  | clearDone
  /-- ENCODE-done (R271). -/
  | encodeDone
deriving DecidableEq, Repr

end Sys2Proof
end

