-- ==== Sys2Proof/WellFormed.lean ====
section
/-! DEFINITION. Which operands an operation may have: the ranges of 30_encoding.md R108. The operands of every other
operation are bounded by their types. -/

namespace Sys2Proof

/-- The signed range of a DIFF field (R108). -/
def inDiffRange (v : Int) : Bool := decide (-2 ≤ v ∧ v ≤ 1)

/-- The signed range of the LUMA green field (R108). -/
def inLumaGreenRange (v : Int) : Bool := decide (-32 ≤ v ∧ v ≤ 31)

/-- The signed range of the two other LUMA fields (R108). -/
def inLumaRange (v : Int) : Bool := decide (-8 ≤ v ∧ v ≤ 7)

/-- The range of a run length (R105, R108). -/
def inRunRange (n : Nat) : Bool := decide (1 ≤ n ∧ n ≤ Config.runMax)

def Instr.wf : Instr → Bool
  | .index _ => true
  | .diff vr vg vb => inDiffRange vr && inDiffRange vg && inDiffRange vb
  | .luma vg vgr vgb => inLumaGreenRange vg && inLumaRange vgr && inLumaRange vgb
  | .run n => inRunRange n
  | .rgb _ _ _ => true
  | .rgba _ _ _ _ => true
  | .wrDataIn _ => true
  | .rdDataOut => true
  | .rdStatus => true
  | .rdCtrl => true
  | .wrCtrl _ => true
  | .rdCount _ => true
  | .wrCount _ _ => true
  | .rdDataIn => true
  | .wrDataOut _ => true
  | .wrStatus _ => true
  | .clearDone => true
  | .encodeDone => true

end Sys2Proof
end

