-- ==== Sys2Proof/Decode.lean ====
section
/-! DEFINITION. From chunk bytes, bus accesses and block turns to operations, and back. A chunk is read by its first
byte (30_encoding.md R101, R109), a register access by its offset and direction (10_state.md R42), an internal step by the
phase that enables it (45_host_interface.md R270, R271). Decoding is total and rejects by name. -/

namespace Sys2Proof

open Sys2Proof.Machine

/-- Why an event names no operation. -/
inductive DecodeError where
  /-- No byte at all where a chunk should begin. -/
  | emptyChunk
  /-- Fewer bytes than the first byte asks for (R109). -/
  | truncatedChunk
  /-- Bytes left over after one chunk. -/
  | trailingBytes
  /-- An access that does not move exactly one byte (R72). -/
  | notOneByte
  /-- An access outside offsets 0..7 (R71, U10). -/
  | outsideWindow
  /-- An access that is both a read and a write (R274). -/
  | readAndWrite
  /-- An access during hardware reset (R274). -/
  | accessInReset
  /-- A block turn in a phase that enables no internal step (R272). -/
  | noStepEnabled
  /-- Hardware reset, which is an event and no operation of the table (R360). -/
  | hardwareReset
deriving DecidableEq, Repr

/-- `v[hi:lo]` of R11: the field of a byte from bit hi down to bit lo, as an unsigned number. -/
def bits (v : Byte) (hi lo : Nat) : Nat := v.toNat / 2 ^ lo % 2 ^ (hi + 1 - lo)

/-- R109: a chunk's length from its first byte alone. -/
def chunkLength (byte0 : Byte) : Nat :=
  if byte0 = Config.tagRgba then 5
  else if byte0 = Config.tagRgb then 4
  else if bits byte0 7 6 = 2 then 2
  else 1

/-- R101 to R108: one chunk off the front of a byte list. A stored field less its bias is the operand (R108). -/
def decodeChunk : List Byte → Except DecodeError (Instr × List Byte)
  | [] => .error .emptyChunk
  | byte0 :: rest =>
    if byte0 = Config.tagRgba then
      match rest with
      | r :: g :: b :: a :: rest => .ok (.rgba r g b a, rest)
      | _ => .error .truncatedChunk
    else if byte0 = Config.tagRgb then
      match rest with
      | r :: g :: b :: rest => .ok (.rgb r g b, rest)
      | _ => .error .truncatedChunk
    else
      match bits byte0 7 6 with
      | 0 => .ok (.index (Fin.ofNat 64 (bits byte0 5 0)), rest)
      | 1 => .ok (.diff (bits byte0 5 4 - 2) (bits byte0 3 2 - 2) (bits byte0 1 0 - 2), rest)
      | 2 =>
        match rest with
        | byte1 :: rest => .ok (.luma (bits byte0 5 0 - 32) (bits byte1 7 4 - 8) (bits byte1 3 0 - 8), rest)
        | _ => .error .truncatedChunk
      | _ => .ok (.run (bits byte0 5 0 + 1), rest)

/-- A byte list that is exactly one chunk. -/
def decodeOneChunk (bytes : List Byte) : Except DecodeError Instr :=
  match decodeChunk bytes with
  | .ok (i, []) => .ok i
  | .ok (_, _ :: _) => .error .trailingBytes
  | .error e => .error e

/-- R42: the read of the register at an offset of the window. -/
def decodeRead (offset : Nat) : Instr :=
  match offset % 8 with
  | 0 => .rdDataIn
  | 1 => .rdDataOut
  | 2 => .rdStatus
  | 3 => .rdCtrl
  | n => .rdCount (Fin.ofNat 4 n)

/-- R42: the write of a byte to the register at an offset of the window. -/
def decodeWrite (offset : Nat) (v : Byte) : Instr :=
  match offset % 8 with
  | 0 => .wrDataIn v
  | 1 => .wrDataOut v
  | 2 => .wrStatus v
  | 3 => .wrCtrl v
  | n => .wrCount (Fin.ofNat 4 n) v

/-- R72, R274, U10: a single-byte read or write inside the window, or a refusal by name. Of the offset only the low three
bits count (R71). -/
def decodeAccess (a : Access) : Except DecodeError Instr :=
  if a.width ≠ 1 then .error .notOneByte
  else if 8 ≤ a.offset then .error .outsideWindow
  else
    match a.dir with
    | .read => .ok (decodeRead a.offset)
    | .write => .ok (decodeWrite a.offset a.data)
    | .readWrite => .error .readAndWrite

/-- R270 to R272: the internal step a phase enables. -/
def decodeInternal : Phase → Except DecodeError Instr
  | .clear => .ok .clearDone
  | .encode => .ok .encodeDone
  | .idle => .error .noStepEnabled
  | .accept => .error .noStepEnabled
  | .emit => .error .noStepEnabled
  | .done => .error .noStepEnabled

/-- The operation an event stands for, in a given phase. -/
def decode (p : Phase) : Event → Except DecodeError Instr
  | .access a => decodeAccess a
  | .accessInReset _ => .error .accessInReset
  | .internal => decodeInternal p
  | .chunk bytes => decodeOneChunk bytes
  | .reset => .error .hardwareReset

/-- INDEX i (R102). -/
def indexByte (i : Slot) : Byte := BitVec.ofNat 8 i.val

/-- DIFF vr,vg,vb (R103). -/
def diffByte (vr vg vb : Int) : Byte :=
  0x40#8 ||| BitVec.ofInt 8 (vr + 2) <<< 4 ||| BitVec.ofInt 8 (vg + 2) <<< 2 ||| BitVec.ofInt 8 (vb + 2)

/-- LUMA vg,vg_r,vg_b (R104). -/
def lumaBytes (vg vgr vgb : Int) : List Byte :=
  [0x80#8 ||| BitVec.ofInt 8 (vg + 32), BitVec.ofInt 8 (vgr + 8) <<< 4 ||| BitVec.ofInt 8 (vgb + 8)]

/-- RUN n (R105). -/
def runByte (n : Nat) : Byte := 0xC0#8 ||| BitVec.ofNat 8 (n - 1)

/-- RGB r,g,b (R106). -/
def rgbBytes (r g b : Byte) : List Byte := [Config.tagRgb, r, g, b]

/-- RGBA r,g,b,a (R107). -/
def rgbaBytes (r g b a : Byte) : List Byte := [Config.tagRgba, r, g, b, a]

/-- The bytes of a chunk (R101 to R107); an operation that is no chunk has none. -/
def chunkBytes : Instr → List Byte
  | .index i => [indexByte i]
  | .diff vr vg vb => [diffByte vr vg vb]
  | .luma vg vgr vgb => lumaBytes vg vgr vgb
  | .run n => [runByte n]
  | .rgb r g b => rgbBytes r g b
  | .rgba r g b a => rgbaBytes r g b a
  | .wrDataIn _ => []
  | .rdDataOut => []
  | .rdStatus => []
  | .rdCtrl => []
  | .wrCtrl _ => []
  | .rdCount _ => []
  | .wrCount _ _ => []
  | .rdDataIn => []
  | .wrDataOut _ => []
  | .wrStatus _ => []
  | .clearDone => []
  | .encodeDone => []

/-- RegRead(offset) as an event (R72). -/
def readEvent (offset : Nat) : Event :=
  .access { offset := offset, width := 1, dir := .read, data := 0 }

/-- RegWrite(offset, v) as an event (R72). -/
def writeEvent (offset : Nat) (v : Byte) : Event :=
  .access { offset := offset, width := 1, dir := .write, data := v }

/-- The event that stands for an operation: a chunk's bytes (R102 to R107), an access (R42), or a block turn. -/
def encode : Instr → Event
  | .index i => .chunk (chunkBytes (.index i))
  | .diff vr vg vb => .chunk (chunkBytes (.diff vr vg vb))
  | .luma vg vgr vgb => .chunk (chunkBytes (.luma vg vgr vgb))
  | .run n => .chunk (chunkBytes (.run n))
  | .rgb r g b => .chunk (chunkBytes (.rgb r g b))
  | .rgba r g b a => .chunk (chunkBytes (.rgba r g b a))
  | .wrDataIn v => writeEvent 0 v
  | .rdDataOut => readEvent 1
  | .rdStatus => readEvent 2
  | .rdCtrl => readEvent 3
  | .wrCtrl v => writeEvent 3 v
  | .rdCount j => readEvent (4 + j.val)
  | .wrCount j v => writeEvent (4 + j.val) v
  | .rdDataIn => readEvent 0
  | .wrDataOut v => writeEvent 1 v
  | .wrStatus v => writeEvent 2 v
  | .clearDone => .internal
  | .encodeDone => .internal

/-- The phases in which an operation's event stands for it: the table matches an internal step on its phase. -/
def matchedIn : Instr → Phase → Bool
  | .clearDone, p => decide (p = .clear)
  | .encodeDone, p => decide (p = .encode)
  | _, _ => true

/-- The chunk bytes of a table word: byte 0 is bits 7..0, each later byte counts on; every bit from nbits on is 0, and the
first byte says how many bytes there are. -/
def tableBytes (nbits w : Nat) : List Byte :=
  let v := w % 2 ^ nbits
  (List.range (chunkLength (BitVec.ofNat 8 v))).map fun j => BitVec.ofNat 8 (v / 256 ^ j)

/-- The operation the decoder reads from a table word. A table word is read as chunk bytes, since only chunks are encoded
in bytes: the table matches a register access on offset and direction and an internal step on the phase (log entry 9). -/
def decodeTableWord (nbits w : Nat) : Option Instr :=
  match decodeOneChunk (tableBytes nbits w) with
  | .ok i => some i
  | .error _ => none

end Sys2Proof
end

