-- ==== Sys2Proof/Machine/State.lean ====
section
/-! DEFINITION. The state of the block, all of 10_state.md, the reasons a step can stop, and the state after hardware
reset (R52, R360). -/

namespace Sys2Proof.Machine

/-- The core encoder state of 10_state.md section 1, the `s = {prev, run, cache}` of R140. -/
structure EncoderState where
  /-- R30. -/
  prev : Pixel
  /-- R31. -/
  run : Nat
  /-- R32: exactly 64 slots of one Pixel. -/
  cache : Vector Pixel 64
deriving DecidableEq, Repr

structure State where
  /-- `prev`, `run` and `cache` (R30 to R32). -/
  enc : EncoderState
  /-- R35. -/
  phase : Phase
  /-- R36. -/
  pos : Word32
  /-- R37: the index of the next channel byte. -/
  k : Nat
  /-- R37: the red latch. -/
  inr : Byte
  /-- R37: the green latch. -/
  ing : Byte
  /-- R37: the blue latch. -/
  inb : Byte
  /-- `px_l` of R38. -/
  pxL : Pixel
  /-- `last_l` of R38. -/
  lastL : Bool
  /-- R39: the output FIFO, the next byte to be read first. -/
  obuf : List Byte
  /-- R40. -/
  fin : Bool
  /-- R41. -/
  nch : Channels
  /-- R41. -/
  npix : Word32
  /-- CTRL.CH4 (R46, R47). -/
  ch4 : Bool
  /-- COUNT (R48). -/
  count : Word32
  /-- ERR (R49). -/
  err : Bool
  /-- ERRCODE (R49). -/
  errcode : BitVec 2
  /-- The model's own: the value the latest register read returned to the host (log entry 3). -/
  rdata : Byte
  /-- The model's own: the events to come (log entry 4). -/
  inputs : List Event
deriving DecidableEq, Repr

/-- Why a step stops with a fault. -/
inductive Fault where
  /-- Raised by RD_DATA_OUT in phase EMIT when `obuf` is empty: `obuf[0]` of R254 does not exist. R53 says that no such
  state is reached. Safe: the model stops where the spec says nothing. -/
  | emptyOutputBuffer
deriving DecidableEq, Repr

/-- Why a step refuses. -/
inductive Refusal where
  /-- An operation without a meaning. No arm of exec raises it. Safe. -/
  | notModelled (mnemonic : String)
  /-- Raised by fetch for an event the decoder rejects, with the decoder's reason: an access that does not move exactly one
  byte, lies outside offsets 0..7, is both a read and a write, or falls in hardware reset (R72, R274, U10: a model refuses
  it), or bytes that are not exactly one chunk (R100). Log entry 13. Safe. -/
  | undecodable (reason : DecodeError)
deriving DecidableEq, Repr

/-- The pixel with every channel 0, the cleared value of a slot (R32). -/
def zeroPixel : Pixel := { r := 0, g := 0, b := 0, a := 0 }

/-- The default pixel `{0,0,0,255}` (R15, R30). -/
def defaultPixel : Pixel := { r := 0, g := 0, b := 0, a := 255 }

/-- Every slot `{0,0,0,0}` (R32, R270). -/
def clearedCache : Vector Pixel 64 := Vector.replicate 64 zeroPixel

/-- The machine right after hardware reset (R52, R360). The spec leaves the cache and the pixel latches unspecified; the
values here are the model's (log entries 1 and 2, DESIGN CHOICE), as are those of rdata and inputs (log entries 3 and 4). -/
def State.reset : State where
  enc := { prev := defaultPixel, run := 0, cache := clearedCache }
  phase := .idle
  pos := 0
  k := 0
  inr := 0
  ing := 0
  inb := 0
  pxL := zeroPixel
  lastL := false
  obuf := []
  fin := false
  nch := .four
  npix := 0
  ch4 := true
  count := 0
  err := false
  errcode := 0
  rdata := 0
  inputs := []

end Sys2Proof.Machine
end

