-- ==== Sys2Proof/Machine/Operands.lean ====
section
/-! DEFINITION. What a pixel step computes from pixels: the hash (42_color_cache.md R180), the channel differences
(43_diff_luma.md R200, R202) and the two range tests (R203, R204). -/

namespace Sys2Proof.Machine

/-- R180: the slot of a pixel. -/
def pixelHash (p : Pixel) : Slot :=
  Fin.ofNat 64 (p.r.toNat * 3 + p.g.toNat * 5 + p.b.toNat * 7 + p.a.toNat * 11)

/-- `s8` of R12: `x mod 256` read as a signed number. -/
def s8 (x : Int) : Int := if 128 ≤ x % 256 then x % 256 - 256 else x % 256

/-- R200: the difference of one channel, wrapping at 8 bits. -/
def delta (now before : Byte) : Int := s8 ((now.toNat : Int) - (before.toNat : Int))

/-- R203: all three differences lie in -2..1. -/
def diffFits (vr vg vb : Int) : Bool := inDiffRange vr && inDiffRange vg && inDiffRange vb

/-- R204: the green difference lies in -32..31 and the two others, less green (R202, unbounded integers), in -8..7. -/
def lumaFits (vr vg vb : Int) : Bool :=
  inLumaGreenRange vg && inLumaRange (vr - vg) && inLumaRange (vb - vg)

/-- The alpha of a pixel of three channels is 255 (R8, R252). -/
def alphaOf (n : Channels) (v : Byte) : Byte :=
  match n with
  | .three => 255
  | .four => v

/-- `nch` as a number (R41). -/
def channelCount (n : Channels) : Nat :=
  match n with
  | .three => 3
  | .four => 4

/-- R41: the channel count CTRL.CH4 selects. -/
def channelsOf (ch4 : Bool) : Channels := if ch4 then .four else .three

end Sys2Proof.Machine
end

