-- ==== Sys2Proof/Machine/Flags.lean ====
section
/-! DEFINITION. The host-visible register values: STATUS (10_state.md R45, 45_host_interface.md R257), CTRL (R46, R258) and
the bytes of COUNT (R48, R260). -/

namespace Sys2Proof.Machine

/-- One status bit as a byte. -/
def flag (b : Bool) : Byte := if b then 1 else 0

/-- BUSY (R45). -/
def busy (p : Phase) : Bool := decide (p = .clear ∨ p = .encode)

/-- STATUS, computed from the state at the moment of the read (R257). Bit 7 reads 0 (R45). -/
def statusByte (s : State) : Byte :=
  flag (decide (s.phase = .accept)) <<< 0
    ||| flag (decide (s.phase = .emit)) <<< 1
    ||| flag (decide (s.phase = .done)) <<< 2
    ||| flag s.err <<< 3
    ||| s.errcode.setWidth 8 <<< 4
    ||| flag (busy s.phase) <<< 6

/-- CTRL as it reads: CH4 in bit 1, every other bit 0 (R258). -/
def ctrlByte (s : State) : Byte := flag s.ch4 <<< 1

/-- `COUNT[8j+7 : 8j]` (R48, R76). -/
def countByte (count : Word32) (j : Fin 4) : Byte := (count >>> (8 * j.val)).setWidth 8

/-- `COUNT[8j+7 : 8j] <- v` (R260): the other three bytes stay. -/
def withCountByte (count : Word32) (j : Fin 4) (v : Byte) : Word32 :=
  count &&& ~~~(0xFF#32 <<< (8 * j.val)) ||| v.setWidth 32 <<< (8 * j.val)

/-- ERRCODE of OVERRUN (R331). -/
def codeOverrun : BitVec 2 := 1

/-- ERRCODE of UNDERRUN (R331). -/
def codeUnderrun : BitVec 2 := 2

end Sys2Proof.Machine
end

