-- ==== Sys2Proof/Machine/PixelOperation.lean ====
section
/-! DEFINITION. The per-pixel operation (40_pixel_operation.md R140), the priority selector (R141) and the encoding of a
whole image (R147), as functions of the core encoder state alone (R142). -/

namespace Sys2Proof.Machine

/-- R181: the slot of the pixel holds an equal pixel. -/
def cacheHit (e : EncoderState) (px : Pixel) : Bool := decide (e.cache[pixelHash px] = px)

/-- The chunk of a cache miss (R140 step 4): RGBA when alpha changed, else DIFF, LUMA or RGB, the first that fits. -/
def missChunk (prev px : Pixel) : Instr :=
  if px.a = prev.a then
    let vr := delta px.r prev.r
    let vg := delta px.g prev.g
    let vb := delta px.b prev.b
    if diffFits vr vg vb then .diff vr vg vb
    else if lumaFits vr vg vb then .luma vg (vr - vg) (vb - vg)
    else .rgb px.r px.g px.b
  else .rgba px.r px.g px.b px.a

/-- The core state after a pixel that is no repetition: `prev` is the pixel (R144), `run` is 0, and the cache holds the
pixel in its slot if it was stored there (R183). -/
def advance (e : EncoderState) (px : Pixel) (stored : Bool) : EncoderState where
  prev := px
  run := 0
  cache := if stored then e.cache.set (pixelHash px) px else e.cache

/-- R163: the RUN byte a break emits first, when a run is pending. -/
def flushBytes (run : Nat) : List Byte := if 0 < run then [runByte run] else []

/-- R140 steps 3 to 5, without the flush: the pixel's own chunk and the new core state. -/
def ownChunk (e : EncoderState) (px : Pixel) : EncoderState × List Byte :=
  if cacheHit e px then (advance e px false, [indexByte (pixelHash px)])
  else (advance e px true, chunkBytes (missChunk e.prev px))

/-- EncodePixel (R140). -/
def encodePixel (e : EncoderState) (px : Pixel) (isLast : Bool) : EncoderState × List Byte :=
  if px = e.prev then
    let n := e.run + 1
    if n = Config.runMax ∨ isLast then ({ e with prev := px, run := 0 }, [runByte n])
    else ({ e with prev := px, run := n }, [])
  else ((ownChunk e px).1, flushBytes e.run ++ (ownChunk e px).2)

/-- The outcome the priority selector chooses (R141): the pixel's own chunk, or none where a run goes on. The RUN byte of a
break is no outcome of its own: it goes before outcomes 2 to 6. -/
def selectChunk (e : EncoderState) (px : Pixel) (isLast : Bool) : Option Instr :=
  if px = e.prev then
    if e.run + 1 = Config.runMax ∨ isLast then some (.run (e.run + 1)) else none
  else if cacheHit e px then some (.index (pixelHash px))
  else some (missChunk e.prev px)

/-- The core state at the start of an encode (R147). -/
def freshEncoder : EncoderState where
  prev := defaultPixel
  run := 0
  cache := clearedCache

/-- The fold of R147 from any core state: the end of the list is the last pixel of the image. -/
def encodeFrom (e : EncoderState) : List Pixel → List Byte
  | [] => []
  | px :: rest =>
    (encodePixel e px rest.isEmpty).2 ++ encodeFrom (encodePixel e px rest.isEmpty).1 rest

/-- EncodeImage (R147). -/
def encodeImage (pixels : List Pixel) : List Byte := encodeFrom freshEncoder pixels

end Sys2Proof.Machine
end

