-- ==== Sys2Proof/Machine/Ops.lean ====
section
/-! DEFINITION. The named operations on the state that the meanings share. The block takes no exception and returns from
none (60_exceptions.md R330, R335): what it does with an error is protocolError. -/

namespace Sys2Proof.Machine

/-- `raise ProtocolError(code)` (R331): the first error since START or reset is kept. -/
def protocolError (code : BitVec 2) (s : State) : State :=
  if s.err then s else { s with err := true, errcode := code }

/-- The value a register read returns to the host. -/
def returnByte (v : Byte) (s : State) : State := { s with rdata := v }

/-- The channel byte goes into the latch of its channel (R252). -/
def latchByte (v : Byte) (s : State) : State :=
  match s.k with
  | 0 => { s with inr := v }
  | 1 => { s with ing := v }
  | 2 => { s with inb := v }
  | _ => s

/-- The current pixel is the last one: `pos = npix - 1` (R33, R38), on integers (log entry 8). -/
def atLastPixel (s : State) : Bool := decide (s.pos.toNat + 1 = s.npix.toNat)

/-- The byte just latched completes the pixel (R252, the branch `k = nch - 1`). -/
def latchPixel (v : Byte) (s : State) : State :=
  { s with
    pxL := { r := s.inr, g := s.ing, b := s.inb, a := alphaOf s.nch v }
    lastL := atLastPixel s
    k := 0
    phase := .encode }

/-- A write to DATA_IN in phase ACCEPT (R252). -/
def acceptByte (v : Byte) (s : State) : State :=
  if s.k + 1 = channelCount s.nch then latchPixel v (latchByte v s)
  else { latchByte v s with k := s.k + 1 }

/-- The phase after the last byte of `obuf` was read (R254), and after a pixel step without output (R271). -/
def afterDrain (last : Bool) : Phase := if last then .done else .accept

/-- A read of DATA_OUT takes the oldest byte off `obuf`, the rest of which is given (R254). -/
def popByte (v : Byte) (rest : List Byte) (s : State) : State :=
  { s with
    obuf := rest
    phase := if rest = [] then afterDrain s.fin else s.phase
    rdata := v }

/-- START (R262), with CH4 and COUNT as they stand. The cache is cleared by CLEAR-done. -/
def start (s : State) : State :=
  { s with
    nch := channelsOf s.ch4
    npix := s.count
    enc := { s.enc with prev := defaultPixel, run := 0 }
    pos := 0
    k := 0
    obuf := []
    fin := false
    err := false
    errcode := 0
    phase := .clear }

/-- CLEAR-done (R270). -/
def clearCache (s : State) : State :=
  { s with
    enc := { s.enc with cache := clearedCache }
    phase := if s.npix = 0 then .done else .accept }

/-- The end of a pixel step (R271): the new core state and the bytes it emitted. -/
def finishPixel (e : EncoderState) (out : List Byte) (s : State) : State :=
  { s with
    enc := e
    pos := s.pos + 1
    fin := s.lastL
    obuf := out
    phase := if out = [] then afterDrain s.lastL else .emit }

/-- A pixel step that emits the pixel's own chunk, after the RUN byte of a pending run (R140, R163, R271). -/
def emitOwn (stored : Bool) (own : List Byte) (s : State) : State :=
  finishPixel (advance s.enc s.pxL stored) (flushBytes s.enc.run ++ own) s

/-- The block is in a pixel step whose pixel is no repetition (R181: `px ≠ prev`). -/
def atBreak (s : State) : Bool := decide (s.phase = .encode ∧ s.pxL ≠ s.enc.prev)

/-- The pixel step takes the miss path (R183) and alpha is as it was (R201). -/
def atDelta (s : State) : Bool :=
  atBreak s && !cacheHit s.enc s.pxL && decide (s.pxL.a = s.enc.prev.a)

/-- vr of the latched pixel (R200). -/
def vrOf (s : State) : Int := delta s.pxL.r s.enc.prev.r

/-- vg of the latched pixel (R200). -/
def vgOf (s : State) : Int := delta s.pxL.g s.enc.prev.g

/-- vb of the latched pixel (R200). -/
def vbOf (s : State) : Int := delta s.pxL.b s.enc.prev.b

/-- Hardware reset at any time (R360). The events to come are outside the block and stay (log
entry 12). -/
def hardwareReset (s : State) : State := { State.reset with inputs := s.inputs }

/-- What a step does next. -/
inductive Fetched where
  /-- Run this operation on this state. -/
  | run (i : Instr) (s : State)
  /-- Nothing to run: the state after the step. -/
  | idle (s : State)
  /-- No operation, by name. -/
  | refuse (r : Refusal)

/-- One event, already taken off the list, in the state it meets. A block turn with no step enabled is a wait (R272). -/
def fetchEvent (e : Event) (s : State) : Fetched :=
  match decode s.phase e with
  | .ok i => .run i s
  | .error .noStepEnabled => .idle s
  | .error .hardwareReset => .idle (hardwareReset s)
  | .error err => .refuse (.undecodable err)

/-- The next event; with none to come the block gets the turn, so that an enabled internal step is always taken in the
end (R372, log entry 4). -/
def fetch (s : State) : Fetched :=
  match s.inputs with
  | [] => fetchEvent .internal s
  | e :: rest => fetchEvent e { s with inputs := rest }

end Sys2Proof.Machine
end

