-- ==== Sys2Proof/Machine/Chunks.lean ====
section
/-! DEFINITION. The six chunk kinds as operations: the pixel step (45_host_interface.md R271) by which the latched pixel is
encoded as that chunk, under the chunk's own condition. Where the condition does not hold the block does not emit the chunk
and nothing happens (log entry 7, DEDUCED from R141: the selector chooses one outcome). -/

namespace Sys2Proof.Machine

/-- RUN n (R160 to R164). At the cap or the last pixel the RUN byte is all the step emits; on a break it goes before the
pixel's own chunk, in the same step (R163, log entry 14). -/
def execRun (n : Nat) (s : State) : Host.Outcome State Fault Refusal :=
  if s.phase ≠ .encode then .next s
  else if s.pxL = s.enc.prev then
    if n = s.enc.run + 1 ∧ (n = Config.runMax ∨ s.lastL) then
      .next (finishPixel { s.enc with run := 0 } [runByte n] s)
    else .next s
  else if n = s.enc.run ∧ 0 < n then
    .next (finishPixel (ownChunk s.enc s.pxL).1 (runByte n :: (ownChunk s.enc s.pxL).2) s)
  else .next s

/-- INDEX i (R182): the cache is not written. -/
def execIndex (i : Slot) (s : State) : Host.Outcome State Fault Refusal :=
  if atBreak s ∧ cacheHit s.enc s.pxL ∧ i = pixelHash s.pxL then
    .next (emitOwn false [indexByte i] s)
  else .next s

/-- DIFF vr,vg,vb (R203). -/
def execDiff (vr vg vb : Int) (s : State) : Host.Outcome State Fault Refusal :=
  if atDelta s ∧ vr = vrOf s ∧ vg = vgOf s ∧ vb = vbOf s ∧ diffFits vr vg vb then
    .next (emitOwn true [diffByte vr vg vb] s)
  else .next s

/-- LUMA vg,vg_r,vg_b (R204). -/
def execLuma (vg vgr vgb : Int) (s : State) : Host.Outcome State Fault Refusal :=
  if atDelta s ∧ vg = vgOf s ∧ vgr = vrOf s - vgOf s ∧ vgb = vbOf s - vgOf s
      ∧ ¬diffFits (vrOf s) (vgOf s) (vbOf s) ∧ lumaFits (vrOf s) (vgOf s) (vbOf s) then
    .next (emitOwn true (lumaBytes vg vgr vgb) s)
  else .next s

/-- RGB r,g,b (R230). -/
def execRgb (r g b : Byte) (s : State) : Host.Outcome State Fault Refusal :=
  if atDelta s ∧ r = s.pxL.r ∧ g = s.pxL.g ∧ b = s.pxL.b
      ∧ ¬diffFits (vrOf s) (vgOf s) (vbOf s) ∧ ¬lumaFits (vrOf s) (vgOf s) (vbOf s) then
    .next (emitOwn true (rgbBytes r g b) s)
  else .next s

/-- RGBA r,g,b,a (R231): a miss whose alpha changed. -/
def execRgba (r g b a : Byte) (s : State) : Host.Outcome State Fault Refusal :=
  if atBreak s ∧ ¬cacheHit s.enc s.pxL ∧ s.pxL.a ≠ s.enc.prev.a
      ∧ r = s.pxL.r ∧ g = s.pxL.g ∧ b = s.pxL.b ∧ a = s.pxL.a then
    .next (emitOwn true (rgbaBytes r g b a) s)
  else .next s

end Sys2Proof.Machine
end

