-- ==== Sys2Proof/Machine/HostAccess.lean ====
section
/-! DEFINITION. The ten register accesses of the host (45_host_interface.md R251 to R262). A read returns its value in
rdata; a write leaves rdata alone. No access depends on the host's mode (20_memory.md R82). -/

namespace Sys2Proof.Machine

/-- RegWrite(0x0, v): a channel byte in ACCEPT (R252), OVERRUN in every other phase (R253). -/
def execWrDataIn (v : Byte) (s : State) : Host.Outcome State Fault Refusal :=
  if s.phase = .accept then .next (acceptByte v s)
  else .next (protocolError codeOverrun s)

/-- RegRead(0x1): the oldest output byte in EMIT (R254), 0x00 and UNDERRUN in every other phase (R255). -/
def execRdDataOut (s : State) : Host.Outcome State Fault Refusal :=
  if s.phase = .emit then
    match s.obuf with
    | [] => .fault .emptyOutputBuffer
    | v :: rest => .next (popByte v rest s)
  else .next (returnByte 0 (protocolError codeUnderrun s))

/-- RegRead(0x2) (R257). -/
def execRdStatus (s : State) : Host.Outcome State Fault Refusal :=
  .next (returnByte (statusByte s) s)

/-- RegRead(0x3) (R258). -/
def execRdCtrl (s : State) : Host.Outcome State Fault Refusal :=
  .next (returnByte (ctrlByte s) s)

/-- RegWrite(0x3, v): CH4 first, then START with the new CH4 if bit 0 is set (R259). -/
def execWrCtrl (v : Byte) (s : State) : Host.Outcome State Fault Refusal :=
  let s1 := { s with ch4 := v.getLsbD 1 }
  if v.getLsbD 0 then .next (start s1) else .next s1

/-- RegRead(0x4 + j) (R260). -/
def execRdCount (j : Fin 4) (s : State) : Host.Outcome State Fault Refusal :=
  .next (returnByte (countByte s.count j) s)

/-- RegWrite(0x4 + j, v) (R260). -/
def execWrCount (j : Fin 4) (v : Byte) (s : State) : Host.Outcome State Fault Refusal :=
  .next { s with count := withCountByte s.count j v }

/-- RegRead(0x0) returns 0x00 (R256). -/
def execRdDataIn (s : State) : Host.Outcome State Fault Refusal :=
  .next (returnByte 0 s)

/-- RegWrite(0x1, v) is ignored (R256). -/
def execWrDataOut (_v : Byte) (s : State) : Host.Outcome State Fault Refusal :=
  .next s

/-- RegWrite(0x2, v) is ignored (R256). -/
def execWrStatus (_v : Byte) (s : State) : Host.Outcome State Fault Refusal :=
  .next s

end Sys2Proof.Machine
end

