-- ==== Sys2Proof/Machine/InternalSteps.lean ====
section
/-! DEFINITION. The two internal steps of the block (45_host_interface.md R270, R271). In a phase that does not enable it a
step is not taken and nothing happens (R272, log entry 7). -/

namespace Sys2Proof.Machine

/-- CLEAR-done (R270), enabled iff the phase is CLEAR. -/
def execClearDone (s : State) : Host.Outcome State Fault Refusal :=
  if s.phase = .clear then .next (clearCache s) else .next s

/-- ENCODE-done (R271), enabled iff the phase is ENCODE. -/
def execEncodeDone (s : State) : Host.Outcome State Fault Refusal :=
  if s.phase = .encode then
    .next (finishPixel (encodePixel s.enc s.pxL s.lastL).1 (encodePixel s.enc s.pxL s.lastL).2 s)
  else .next s

end Sys2Proof.Machine
end

