-- ==== Sys2Proof/Machine/Dispatch.lean ====
section
/-! DEFINITION. One arm per operation of the opcode table. -/

namespace Sys2Proof.Machine

def exec (i : Instr) (s : State) : Host.Outcome State Fault Refusal :=
  match i with
  | .index i1 => Sys2Proof.Machine.execIndex i1 s
  | .diff vr vg vb => Sys2Proof.Machine.execDiff vr vg vb s
  | .luma vg vgr vgb => Sys2Proof.Machine.execLuma vg vgr vgb s
  | .run n => Sys2Proof.Machine.execRun n s
  | .rgb r g b => Sys2Proof.Machine.execRgb r g b s
  | .rgba r g b a => Sys2Proof.Machine.execRgba r g b a s
  | .wrDataIn v => Sys2Proof.Machine.execWrDataIn v s
  | .rdDataOut => Sys2Proof.Machine.execRdDataOut s
  | .rdStatus => Sys2Proof.Machine.execRdStatus s
  | .rdCtrl => Sys2Proof.Machine.execRdCtrl s
  | .wrCtrl v => Sys2Proof.Machine.execWrCtrl v s
  | .rdCount j => Sys2Proof.Machine.execRdCount j s
  | .wrCount j v => Sys2Proof.Machine.execWrCount j v s
  | .rdDataIn => Sys2Proof.Machine.execRdDataIn s
  | .wrDataOut v => Sys2Proof.Machine.execWrDataOut v s
  | .wrStatus v => Sys2Proof.Machine.execWrStatus v s
  | .clearDone => Sys2Proof.Machine.execClearDone s
  | .encodeDone => Sys2Proof.Machine.execEncodeDone s

end Sys2Proof.Machine
end

