-- ==== Sys2Proof/Machine/Step.lean ====
section
/-! DEFINITION. One step: fetch the next event, run the operation it stands for. -/

namespace Sys2Proof.Machine

def step (s : State) : Host.Outcome State Fault Refusal :=
  match fetch s with
  | .run i s1 => exec i s1
  | .idle s1 => .next s1
  | .refuse r => .refused r

/-- The chunk of a table word placed as the very next event. -/
def State.withFetchWord (s : State) (nbits w : Nat) : State :=
  { s with inputs := .chunk (tableBytes nbits w) :: s.inputs }

end Sys2Proof.Machine
end

