-- ==== Sys2Proof/Machine/Framing.lean ====
section
/-! DEFINITION. The host-side framing of 46_stream_framing.md (StreamAssembler): validation, sizing, header, end marker. It
is host software and changes nothing in the block (log entry 17). -/

namespace Sys2Proof.Machine

/-- The descriptor of R300, before it is checked. -/
structure Descriptor where
  width : Nat
  height : Nat
  channels : Nat
  colorspace : Nat
deriving DecidableEq, Repr

/-- The two errors of the host software (R303, R333). Neither reaches the block. -/
inductive HostError where
  | invalidDescriptor
  | allocationFailure
deriving DecidableEq, Repr

/-- R300, with MAX_PIXELS as an argument (R301). -/
def validDescriptor (maxPixels : Config.MaxPixels) (d : Descriptor) : Bool :=
  decide (d.width ≠ 0 ∧ d.height ≠ 0 ∧ (d.channels = 3 ∨ d.channels = 4)
    ∧ (d.colorspace = 0 ∨ d.colorspace = 1) ∧ d.width * d.height ≤ maxPixels.val)

/-- R302. -/
def bufferSize (d : Descriptor) : Nat :=
  d.width * d.height * (d.channels + 1) + Config.headerSize + Config.endMarkerSize

/-- `MemWrite(addr, 4, v)`: most-significant byte first (R304, R306). -/
def bigEndian4 (v : Nat) : List Byte :=
  [BitVec.ofNat 8 (v / 2 ^ 24), BitVec.ofNat 8 (v / 2 ^ 16), BitVec.ofNat 8 (v / 2 ^ 8), BitVec.ofNat 8 v]

/-- R304. -/
def header (d : Descriptor) : List Byte :=
  Config.magic ++ bigEndian4 d.width ++ bigEndian4 d.height
    ++ [BitVec.ofNat 8 d.channels, BitVec.ofNat 8 d.colorspace]

/-- R308. -/
def endMarker : List Byte := [0, 0, 0, 0, 0, 0, 0, 1]

/-- R307: the pixels of a channel buffer, alpha 255 with three channels. -/
def pixelsOf (n : Channels) : List Byte → List Pixel
  | r :: g :: b :: rest =>
    match n, rest with
    | .three, rest => { r := r, g := g, b := b, a := 255 } :: pixelsOf n rest
    | .four, a :: rest => { r := r, g := g, b := b, a := a } :: pixelsOf n rest
    | .four, [] => []
  | _ => []

/-- The channel count a valid descriptor asks for: `CTRL.CH4` is `channels = 4` (R307). -/
def Descriptor.ch4 (d : Descriptor) : Bool := decide (d.channels = 4)

/-- The pixels of the image in a channel buffer, `width * height` of them at most (R307, log entry 17). -/
def imagePixels (d : Descriptor) (buffer : List Byte) : List Pixel :=
  (pixelsOf (channelsOf d.ch4) buffer).take (d.width * d.height)

/-- The written bytes around a chunk stream and their number (R304, R307 to R309). R309 returns the buffer that R302 sized;
what it holds past the bytes written is not stated, and here the bytes written are all that is returned (log entry 22,
DESIGN CHOICE). -/
def frameStream (d : Descriptor) (chunks : List Byte) : List Byte × Nat :=
  (header d ++ chunks ++ endMarker, Config.headerSize + chunks.length + Config.endMarkerSize)

/-- What the host checks before it emits a byte (R300, R303, R333). `allocated` says whether the buffer could be
obtained. -/
def checkRequest (maxPixels : Config.MaxPixels) (allocated : Bool) (d : Descriptor) : Except HostError Unit :=
  if validDescriptor maxPixels d then
    if allocated then .ok () else .error .allocationFailure
  else .error .invalidDescriptor

/-- The whole stream with the software loop of R307, and its length (R309): of the buffer, the bytes written alone (log entry
22, DESIGN CHOICE). -/
def assembleStream (maxPixels : Config.MaxPixels) (allocated : Bool) (d : Descriptor) (buffer : List Byte) :
    Except HostError (List Byte × Nat) :=
  match checkRequest maxPixels allocated d with
  | .error e => .error e
  | .ok () => .ok (frameStream d (encodeImage (imagePixels d buffer)))

end Sys2Proof.Machine
end

