-- ==== Sys2Proof/Machine/HostOps.lean ====
section
/-! DEFINITION. The host operations of 30_encoding.md R114 and the order in which a host encodes one image
(70_reset_and_hazards.md R363, 46_stream_framing.md R307), as functions of the machine. A poll loop has an explicit bound, and the block gets a turn
after each poll that did not end it: one schedule among those State.inputs can hold (log entry
10, DESIGN CHOICE). -/

namespace Sys2Proof.Machine

/-- One event performed before all the events to come. -/
def perform (e : Event) (s : State) : Option State :=
  match step { s with inputs := e :: s.inputs } with
  | .next t => some t
  | .fault _ => none
  | .refused _ => none

/-- `W off, v` (R114). -/
def regWrite (offset : Nat) (v : Byte) (s : State) : Option State := perform (writeEvent offset v) s

/-- `R off -> v` (R114). -/
def regRead (offset : Nat) (s : State) : Option (Byte × State) :=
  (perform (readEvent offset) s).map fun t => (t.rdata, t)

/-- `POLL m` (R114). -/
def poll (mask : Byte) : Nat → State → Option State
  | 0, _ => none
  | fuel + 1, s =>
    match regRead 2 s with
    | none => none
    | some (v, t) => if v &&& mask ≠ 0 then some t else (perform .internal t).bind (poll mask fuel)

/-- Several writes to one register. -/
def writeAll (offset : Nat) : List Byte → State → Option State
  | [], s => some s
  | v :: vs, s => (regWrite offset v s).bind (writeAll offset vs)

/-- `SETCOUNT n` (R114). -/
def setCount (n : Word32) (s : State) : Option State :=
  (regWrite 4 (countByte n 0) s).bind fun s =>
  (regWrite 5 (countByte n 1) s).bind fun s =>
  (regWrite 6 (countByte n 2) s).bind fun s =>
  regWrite 7 (countByte n 3) s

/-- `START c` (R114): `(c << 1) | 1`. -/
def startEncode (c : Bool) (s : State) : Option State := regWrite 3 (flag c <<< 1 ||| 1) s

/-- The channel bytes of a pixel in the order of R74. -/
def channelBytes (n : Channels) (p : Pixel) : List Byte :=
  match n with
  | .three => [p.r, p.g, p.b]
  | .four => [p.r, p.g, p.b, p.a]

/-- `PUSHPX` (R114). -/
def pushPixel (fuel : Nat) (n : Channels) (p : Pixel) (s : State) : Option State :=
  (poll 0x01 fuel s).bind (writeAll 0 (channelBytes n p))

/-- `DRAIN` (R114): the bytes read, and the state in which RD_REQ or DONE was seen. -/
def drain : Nat → State → Option (List Byte × State)
  | 0, _ => none
  | fuel + 1, s =>
    match regRead 2 s with
    | none => none
    | some (v, t) =>
      if v.getLsbD 1 then
        match regRead 1 t with
        | none => none
        | some (b, u) => (drain fuel u).map fun r => (b :: r.1, r.2)
      else if v.getLsbD 0 || v.getLsbD 2 then some ([], t)
      else (perform .internal t).bind (drain fuel)

/-- R363 step 6, pixel by pixel. -/
def pushAll (fuel : Nat) (n : Channels) : List Pixel → State → Option (List Byte × State)
  | [], s => some ([], s)
  | p :: ps, s =>
    (pushPixel fuel n p s).bind fun s =>
    (drain fuel s).bind fun r =>
    (pushAll fuel n ps r.2).map fun q => (r.1 ++ q.1, q.2)

/-- R363 steps 3 to 7, with the number for COUNT: the bytes read and the state the block ends in. Twelve polls are enough for
the turns the block needs and the at most six bytes of a pixel. -/
def runEncode (c : Bool) (count : Word32) (pixels : List Pixel) (s : State) : Option (List Byte × State) :=
  (setCount count s).bind fun s =>
  (startEncode c s).bind fun s =>
  pushAll 12 (channelsOf c) pixels s

/-- The chunk stream of an image and the state the block ends in. -/
def encodeOnBlock (c : Bool) (pixels : List Pixel) (s : State) : Option (List Byte × State) :=
  runEncode c (BitVec.ofNat 32 pixels.length) pixels s

/-- R363 step 8: STATUS shows DONE and ERR = 0. -/
def finished (s : State) : Option State :=
  (regRead 2 s).bind fun r => if r.1.getLsbD 2 && !r.1.getLsbD 3 then some r.2 else none

/-- The whole stream with the block (R307, R363): COUNT is `width * height`, CTRL.CH4 is `channels = 4`, the bytes of the
channel buffer go to DATA_IN in order, and the bytes read from DATA_OUT stand between header and end marker. On either error
of R303 the block is not touched. An encode that does not end in DONE with ERR = 0 gives no stream (log entry 23, DESIGN
CHOICE). -/
def assembleOnBlock (maxPixels : Config.MaxPixels) (allocated : Bool) (d : Descriptor) (buffer : List Byte) (s : State) :
    Except HostError (Option ((List Byte × Nat) × State)) :=
  match checkRequest maxPixels allocated d with
  | .error e => .error e
  | .ok () => .ok <|
    (runEncode d.ch4 (BitVec.ofNat 32 (d.width * d.height)) (imagePixels d buffer) s).bind fun r =>
    (finished r.2).map fun t => (frameStream d r.1, t)

end Sys2Proof.Machine
end

