-- ==== Sys2Proof/Machine/Recover.lean ====
section
/-! DEFINITION. How a reader recovers the pixels from a chunk stream (40_pixel_operation.md R149). It states the obligation
of R149 and is no decoder of the block: the spec has none (R6, N17), and the handling of the end marker is left out
(log entry 15). -/

namespace Sys2Proof.Machine

/-- What a reader keeps: `prev` and the cache, as R140 does (R149). -/
structure ReaderState where
  prev : Pixel
  cache : Vector Pixel 64
deriving DecidableEq, Repr

/-- A channel moved by a delta, modulo 256 (R149, R206). -/
def addDelta (c : Byte) (d : Int) : Byte := BitVec.ofInt 8 ((c.toNat : Int) + d)

/-- A pixel of a chunk of the miss path: kept as `prev` and in its slot. -/
def keepPixel (r : ReaderState) (p : Pixel) : ReaderState :=
  { r with prev := p, cache := r.cache.set (pixelHash p) p }

/-- The pixels one chunk stands for (R149). An operation that is no chunk stands for none. -/
def readChunk (r : ReaderState) (i : Instr) : ReaderState × List Pixel :=
  let moved (dr dg db : Int) : Pixel :=
    { r := addDelta r.prev.r dr, g := addDelta r.prev.g dg, b := addDelta r.prev.b db, a := r.prev.a }
  match i with
  | .run n => (r, List.replicate n r.prev)
  | .index i => ({ r with prev := r.cache[i] }, [r.cache[i]])
  | .diff vr vg vb => (keepPixel r (moved vr vg vb), [moved vr vg vb])
  | .luma vg vgr vgb => (keepPixel r (moved (vgr + vg) vg (vgb + vg)), [moved (vgr + vg) vg (vgb + vg)])
  | .rgb pr pg pb =>
    let p : Pixel := { r := pr, g := pg, b := pb, a := r.prev.a }
    (keepPixel r p, [p])
  | .rgba pr pg pb pa =>
    let p : Pixel := { r := pr, g := pg, b := pb, a := pa }
    (keepPixel r p, [p])
  | .wrDataIn _ => (r, [])
  | .rdDataOut => (r, [])
  | .rdStatus => (r, [])
  | .rdCtrl => (r, [])
  | .wrCtrl _ => (r, [])
  | .rdCount _ => (r, [])
  | .wrCount _ _ => (r, [])
  | .rdDataIn => (r, [])
  | .wrDataOut _ => (r, [])
  | .wrStatus _ => (r, [])
  | .clearDone => (r, [])
  | .encodeDone => (r, [])

/-- The pixels of a byte list that is a whole number of chunks; `fuel` bounds the number of chunks. -/
def readStream : Nat → ReaderState → List Byte → Option (List Pixel)
  | _, _, [] => some []
  | 0, _, _ :: _ => none
  | fuel + 1, r, b :: bs =>
    match decodeChunk (b :: bs) with
    | .ok (i, rest) =>
      (readStream fuel (readChunk r i).1 rest).map ((readChunk r i).2 ++ ·)
    | .error _ => none

/-- The pixels of a chunk stream: a chunk has at least one byte, so the stream's length bounds the number of chunks. -/
def readImage (stream : List Byte) : Option (List Pixel) :=
  readStream stream.length { prev := defaultPixel, cache := clearedCache } stream

end Sys2Proof.Machine
end

