-- ==== Sys2Proof/Safety.lean ====
section
/-! DEFINITION. What claims about the block are stated in: the invariant of its runs (10_state.md R53 and what it needs to
be inductive), the states a run reaches, and the relation between a state and the encode it is in the middle of
(45_host_interface.md R273). -/

namespace Sys2Proof.Machine

/-- The invariants of R53, with R31, R38, R49, R185, R186 and R232, in the form every step keeps. -/
structure BlockInv (s : State) : Prop where
  /-- R31: between pixel steps the run counter is at most 61. -/
  run_bound : s.enc.run ≤ 61
  /-- R49: no error, code 0. -/
  no_error : s.err = false → s.errcode = 0
  /-- R45, U9: an error has code 1 or 2, never 3. -/
  error : s.err = true → s.errcode = codeOverrun ∨ s.errcode = codeUnderrun
  /-- R35, R52: nothing is under way before START has been obeyed. -/
  waiting : s.phase = .idle ∨ s.phase = .clear →
    s.obuf = [] ∧ s.fin = false ∧ s.k = 0 ∧ s.pos = 0
  /-- R53. -/
  accept : s.phase = .accept → s.obuf = [] ∧ s.pos.toNat < s.npix.toNat ∧ s.k < channelCount s.nch
  /-- R53, R38. -/
  encode : s.phase = .encode →
    s.obuf = [] ∧ s.pos.toNat < s.npix.toNat ∧ s.k = 0 ∧ s.lastL = atLastPixel s
  /-- R53, R40. -/
  emit : s.phase = .emit →
    s.obuf ≠ [] ∧ s.obuf.length ≤ Config.obufDepth ∧ s.k = 0 ∧ s.pos.toNat ≤ s.npix.toNat
      ∧ (s.fin = true ↔ s.pos = s.npix)
  /-- R53. -/
  done : s.phase = .done → s.obuf = [] ∧ s.pos = s.npix
  /-- R53. -/
  fin_set : s.fin = true → s.enc.run = 0 ∧ s.pos = s.npix
  /-- R186, R232: with three channels every pixel has alpha 255. -/
  three : s.nch = .three → s.enc.prev.a = 255 ∧ (s.phase = .encode → s.pxL.a = 255)
  /-- R185: a slot holds `{0,0,0,0}` or a pixel that belongs there. -/
  cache : s.phase ≠ .idle → s.phase ≠ .clear →
    ∀ i : Slot, s.enc.cache[i] = zeroPixel ∨ pixelHash s.enc.cache[i] = i

/-- The states of runs from hardware reset: the outside may change what is still to come at any time. -/
inductive Reachable : State → Prop where
  | reset : Reachable State.reset
  | arrive {s : State} (events : List Event) (h : Reachable s) : Reachable { s with inputs := events }
  | step {s t : State} (h : Reachable s) (hs : Machine.step s = .next t) : Reachable t

/-- A write to CTRL that performs START (R259). -/
def isStart (i : Instr) : Bool :=
  match i with
  | .wrCtrl v => v.getLsbD 0
  | _ => false

/-- A register access of the host. -/
def isHostAccess (i : Instr) : Bool :=
  match i with
  | .wrDataIn _ => true
  | .rdDataOut => true
  | .rdStatus => true
  | .rdCtrl => true
  | .wrCtrl _ => true
  | .rdCount _ => true
  | .wrCount _ _ => true
  | .rdDataIn => true
  | .wrDataOut _ => true
  | .wrStatus _ => true
  | _ => false

/-- One of the six chunk kinds (R101). -/
def isChunk (i : Instr) : Bool :=
  match i with
  | .index _ => true
  | .diff _ _ _ => true
  | .luma _ _ _ => true
  | .run _ => true
  | .rgb _ _ _ => true
  | .rgba _ _ _ _ => true
  | _ => false

/-- The host keeps the handshake (R370): it writes DATA_IN only while RD_REQ = 1 and reads DATA_OUT only while WR_REQ = 1. -/
def inTurn (i : Instr) (s : State) : Prop :=
  match i with
  | .wrDataIn _ => s.phase = .accept
  | .rdDataOut => s.phase = .emit
  | _ => True

/-- The first pixels of an image whose remaining length, these included, is `left`: the core state after them and the bytes
they emitted (R147). -/
def encodePrefix (e : EncoderState) (left : Nat) : List Pixel → EncoderState × List Byte
  | [] => (e, [])
  | px :: rest =>
    let r := encodePixel e px (decide (left = 1))
    let q := encodePrefix r.1 (left - 1) rest
    (q.1, r.2 ++ q.2)

/-- The encode the state is in the middle of (R273): the pixels delivered in full since START and the bytes read since
START determine the core state and the bytes still in the output buffer. -/
def Tracks (pixels : List Pixel) (out : List Byte) (s : State) : Prop :=
  match s.phase with
  | .idle => False
  | .clear =>
    pixels = [] ∧ out = [] ∧ s.enc.prev = defaultPixel ∧ s.enc.run = 0 ∧ s.pos = 0 ∧ s.k = 0 ∧ s.obuf = []
  | .accept =>
    pixels.length = s.pos.toNat ∧ s.pos.toNat < s.npix.toNat ∧ s.k < channelCount s.nch
      ∧ (s.enc, out) = encodePrefix freshEncoder s.npix.toNat pixels
  | .encode =>
    ∃ before, pixels = before ++ [s.pxL] ∧ before.length = s.pos.toNat ∧ s.pos.toNat < s.npix.toNat
      ∧ s.k = 0 ∧ s.lastL = atLastPixel s
      ∧ (s.enc, out) = encodePrefix freshEncoder s.npix.toNat before
  | .emit =>
    pixels.length = s.pos.toNat ∧ s.pos.toNat ≤ s.npix.toNat ∧ s.k = 0
      ∧ (s.fin = true ↔ s.pos = s.npix)
      ∧ (s.enc, out ++ s.obuf) = encodePrefix freshEncoder s.npix.toNat pixels
  | .done =>
    pixels.length = s.npix.toNat ∧ s.obuf = []
      ∧ (s.enc, out) = encodePrefix freshEncoder s.npix.toNat pixels

/-- The pixel a byte written to DATA_IN completes (R252): the latched channels, with this byte in the last one. -/
def completedPixel (v : Byte) (s : State) : Pixel :=
  match s.nch with
  | .three => { r := s.inr, g := s.ing, b := v, a := 255 }
  | .four => { r := s.inr, g := s.ing, b := s.inb, a := v }

/-- The pixels delivered after an operation (R252). -/
def pixelsAfter (i : Instr) (s : State) (pixels : List Pixel) : List Pixel :=
  match i with
  | .wrDataIn v =>
    if s.phase = .accept ∧ s.k + 1 = channelCount s.nch then pixels ++ [completedPixel v s] else pixels
  | _ => pixels

/-- The bytes read after an operation that led to state `t` (R254). -/
def outAfter (i : Instr) (s t : State) (out : List Byte) : List Byte :=
  match i with
  | .rdDataOut => if s.phase = .emit then out ++ [t.rdata] else out
  | _ => out

end Sys2Proof.Machine
end

