-- ==== Sys2Proof/Certificates/Slice0/Obligations.lean ====
section
/-! DEFINITION. The statements for the provers, from the numbered rules of the spec. -/

open Sys2Proof Sys2Proof.Machine

/-! ### Steps and decoding -/

/-- A step runs the operation its event decodes to, on the state without that event; with no event to come it runs the
internal step the phase enables (R250, R270, R271; the schedule in State.inputs is the model's, log entry 4). -/
def Obligations.StepRunsDecodedOperation : Prop :=
  (∀ (s : State) (e : Event) (rest : List Event) (i : Instr),
    s.inputs = e :: rest → decode s.phase e = .ok i → step s = exec i { s with inputs := rest })
  ∧ (∀ s : State, s.inputs = [] → s.phase = .clear → step s = exec .clearDone s)
  ∧ (∀ s : State, s.inputs = [] → s.phase = .encode → step s = exec .encodeDone s)

/-- In IDLE, ACCEPT, EMIT and DONE the block waits: a turn given to it, or no event at all, changes nothing (R272). -/
def Obligations.BlockWaitsForTheHost : Prop :=
  ∀ s : State, s.phase = .idle ∨ s.phase = .accept ∨ s.phase = .emit ∨ s.phase = .done →
    (s.inputs = [] → step s = .next s)
    ∧ (∀ rest, s.inputs = .internal :: rest → step s = .next { s with inputs := rest })

/-- An access that is not one byte wide, lies outside offsets 0..7, is both a read and a write, or falls in hardware reset
is refused in every state (R71, R72, R274, U10). -/
def Obligations.UndefinedAccessesAreRefused : Prop :=
  ∀ (s : State) (a : Access) (rest : List Event),
    (s.inputs = .access a :: rest → a.width ≠ 1 ∨ 8 ≤ a.offset ∨ a.dir = .readWrite →
      ∃ r, step s = .refused r)
    ∧ (s.inputs = .accessInReset a :: rest → ∃ r, step s = .refused r)

/-- The register window (R42): each single-byte read or write at an offset 0..7 is its register's operation. -/
def Obligations.WindowOffsetsSelectRegisters : Prop :=
  ∀ (p : Phase) (v : Byte),
    decode p (readEvent 0) = .ok .rdDataIn ∧ decode p (writeEvent 0 v) = .ok (.wrDataIn v)
    ∧ decode p (readEvent 1) = .ok .rdDataOut ∧ decode p (writeEvent 1 v) = .ok (.wrDataOut v)
    ∧ decode p (readEvent 2) = .ok .rdStatus ∧ decode p (writeEvent 2 v) = .ok (.wrStatus v)
    ∧ decode p (readEvent 3) = .ok .rdCtrl ∧ decode p (writeEvent 3 v) = .ok (.wrCtrl v)
    ∧ ∀ j : Fin 4, decode p (readEvent (4 + j.val)) = .ok (.rdCount j)
      ∧ decode p (writeEvent (4 + j.val) v) = .ok (.wrCount j v)

/-- Every well-formed operation is decoded from its own event, with every operand (R102 to R108 for the chunks). -/
def Obligations.DecodeOfEncodeIsIdentity : Prop :=
  ∀ (i : Instr) (p : Phase), i.wf = true → matchedIn i p = true → decode p (encode i) = .ok i

/-- What a chunk decodes to is well formed and encodes back to the very bytes consumed (R101, R108). -/
def Obligations.EncodeOfDecodedChunkIsIdentity : Prop :=
  ∀ (bytes : List Byte) (i : Instr) (rest : List Byte),
    decodeChunk bytes = .ok (i, rest) → i.wf = true ∧ isChunk i = true ∧ chunkBytes i ++ rest = bytes

/-- R109: the chunk's length from its first byte alone; the map is total, and a chunk of that length is read from every
first byte, however the other bytes read. -/
def Obligations.ChunkLengthFromFirstByte : Prop :=
  ∀ (byte0 : Byte) (tail : List Byte),
    chunkLength byte0 = (if byte0 = 0xFF then 5 else if byte0 = 0xFE then 4
      else if byte0.extractLsb 7 6 = 0b10#2 then 2 else 1)
    ∧ (chunkLength byte0 ≤ tail.length + 1 →
        ∃ i, decodeChunk (byte0 :: tail) = .ok (i, tail.drop (chunkLength byte0 - 1)))
    ∧ (tail.length + 1 < chunkLength byte0 → decodeChunk (byte0 :: tail) = .error .truncatedChunk)

/-- Some chunk bytes of 95_test_vectors.md read as the chunks they stand for. -/
def Obligations.WrittenOutWordsDecode : Prop :=
  decodeOneChunk [0x09] = .ok (.index 9)
  ∧ decodeOneChunk [0x79] = .ok (.diff 1 0 (-1))
  ∧ decodeOneChunk [0xA2, 0x87] = .ok (.luma 2 0 (-1))
  ∧ decodeOneChunk [0xC2] = .ok (.run 3)
  ∧ decodeOneChunk [0xFD] = .ok (.run 62)
  ∧ decodeOneChunk [0xFE, 0x0A, 0x14, 0x1E] = .ok (.rgb 10 20 30)
  ∧ decodeOneChunk [0xFF, 0x05, 0x05, 0x05, 0x07] = .ok (.rgba 5 5 5 7)

/-! ### The per-pixel operation -/

/-- R180: the hash is the sum mod 64, the sum is at most 6630, and reducing any product or partial sum mod 64 gives the same
slot. -/
def Obligations.HashIsSumModuloSixtyFour : Prop :=
  ∀ p : Pixel,
    (pixelHash p).val = (p.r.toNat * 3 + p.g.toNat * 5 + p.b.toNat * 7 + p.a.toNat * 11) % 64
    ∧ p.r.toNat * 3 + p.g.toNat * 5 + p.b.toNat * 7 + p.a.toNat * 11 ≤ 6630
    ∧ ∀ r g b a rg rgb : Nat, r % 64 = p.r.toNat * 3 % 64 → g % 64 = p.g.toNat * 5 % 64 →
        b % 64 = p.b.toNat * 7 % 64 → a % 64 = p.a.toNat * 11 % 64 →
        rg % 64 = (r + g) % 64 → rgb % 64 = (rg + b) % 64 →
        (pixelHash p).val = (rgb + a) % 64

/-- R200: a channel difference is the 8-bit subtraction read as two's complement; 255 to 0 is +1, 0 to 255 is -1. -/
def Obligations.DeltaIsWrappingSignedDifference : Prop :=
  (∀ now before : Byte, delta now before = (now - before).toInt)
  ∧ delta 0 255 = 1 ∧ delta 255 0 = -1

/-- R202: a luma difference lies in -255..255, and where green lies in the LUMA range, wrapping it modulo 256 changes neither
the test nor the stored field. -/
def Obligations.LumaDifferenceWidthDoesNotMatter : Prop :=
  ∀ v vg : Int, -128 ≤ v → v ≤ 127 → -128 ≤ vg → vg ≤ 127 →
    (-255 ≤ v - vg ∧ v - vg ≤ 255)
    ∧ (inLumaGreenRange vg = true →
      inLumaRange (s8 (v - vg)) = inLumaRange (v - vg)
      ∧ BitVec.ofInt 8 (s8 (v - vg) + 8) = BitVec.ofInt 8 (v - vg + 8))

/-- R144: after every application of EncodePixel, `prev = px`. -/
def Obligations.PrevIsThePixelJustEncoded : Prop :=
  ∀ (e : EncoderState) (px : Pixel) (isLast : Bool), (encodePixel e px isLast).1.prev = px

/-- R77: a pixel that continues a run does not touch the cache. Any other pixel reads the slot of its hash alone: a hit writes
nothing, a miss writes that slot with the pixel, and no other slot is read or written. -/
def Obligations.PixelStepTouchesOneSlot : Prop :=
  ∀ (e : EncoderState) (px : Pixel) (isLast : Bool),
    (px = e.prev → (encodePixel e px isLast).1.cache = e.cache)
    ∧ (px ≠ e.prev → e.cache[pixelHash px] = px → (encodePixel e px isLast).1.cache = e.cache)
    ∧ (px ≠ e.prev → e.cache[pixelHash px] ≠ px →
        (encodePixel e px isLast).1.cache[pixelHash px] = px
        ∧ ∀ j : Slot, j ≠ pixelHash px → (encodePixel e px isLast).1.cache[j] = e.cache[j])
    ∧ ∀ other : Vector Pixel 64, px = e.prev ∨ other[pixelHash px] = e.cache[pixelHash px] →
        (encodePixel { e with cache := other } px isLast).2 = (encodePixel e px isLast).2

/-- R146, with R31 and R148: an application emits 0 to 6 bytes, at most 5 when alpha is as before; the run counter stays at
most 61; the last pixel emits at least one byte and leaves the run counter 0. -/
def Obligations.PixelOutputAndRunBounds : Prop :=
  ∀ (e : EncoderState) (px : Pixel) (isLast : Bool), e.run ≤ 61 →
    (encodePixel e px isLast).2.length ≤ 6
    ∧ (px.a = e.prev.a → (encodePixel e px isLast).2.length ≤ 5)
    ∧ (encodePixel e px isLast).1.run ≤ 61
    ∧ (isLast = true → (encodePixel e px isLast).2 ≠ [] ∧ (encodePixel e px isLast).1.run = 0)

/-- R145: the bytes of one application are those of the selected chunk, if there is one, after the RUN byte of a pending
run that the pixel breaks. A pixel that breaks a run has a chunk of its own, of another kind than RUN. The selected chunk is
well formed, so every field fits its width (R108). -/
def Obligations.PixelOutputIsFlushThenChunk : Prop :=
  ∀ (e : EncoderState) (px : Pixel) (isLast : Bool), e.run ≤ 61 →
    (encodePixel e px isLast).2 =
      (if px ≠ e.prev ∧ 0 < e.run then chunkBytes (.run e.run) else [])
        ++ (match selectChunk e px isLast with
            | some i => chunkBytes i
            | none => [])
    ∧ (px ≠ e.prev → ∃ i, selectChunk e px isLast = some i ∧ ∀ n, i ≠ .run n)
    ∧ (∀ i, selectChunk e px isLast = some i → i.wf = true ∧ isChunk i = true)

/-- R205: every delta triple that fits DIFF fits LUMA, and DIFF is taken first. R111: the other chunks the selector never
chooses in one pixel step. -/
def Obligations.SelectorNeverChooses : Prop :=
  (∀ vr vg vb : Int, diffFits vr vg vb = true → lumaFits vr vg vb = true)
  ∧ ∀ (e : EncoderState) (px : Pixel) (isLast : Bool) (i : Instr), selectChunk e px isLast = some i →
    (px = e.prev → ∃ n, i = .run n)
    ∧ (px ≠ e.prev → e.cache[pixelHash px] = px → i = .index (pixelHash px))
    ∧ (px.a = e.prev.a → ∀ r g b a, i ≠ .rgba r g b a)
    ∧ (∀ vg vgr vgb, i = .luma vg vgr vgb → diffFits (vgr + vg) vg (vgb + vg) = false)
    ∧ (∀ r g b, i = .rgb r g b →
        diffFits (delta r e.prev.r) (delta g e.prev.g) (delta b e.prev.b) = false
        ∧ lumaFits (delta r e.prev.r) (delta g e.prev.g) (delta b e.prev.b) = false)
    ∧ i ≠ .diff 0 0 0

/-- R232: with three channels the pixel being encoded and the one before have alpha 255, so RGBA is not selected and the
pixel's own chunk has at most four bytes; with four channels it has at most five. -/
def Obligations.ThreeChannelsNeverGiveRgba : Prop :=
  ∀ s : State, BlockInv s → s.phase = .encode →
    (s.nch = .three → s.pxL.a = 255 ∧ s.enc.prev.a = 255
      ∧ (∀ r g b a, selectChunk s.enc s.pxL s.lastL ≠ some (.rgba r g b a))
      ∧ ∀ i, selectChunk s.enc s.pxL s.lastL = some i → (chunkBytes i).length ≤ 4)
    ∧ ∀ i, selectChunk s.enc s.pxL s.lastL = some i → (chunkBytes i).length ≤ 5

/-- R149: the chunk stream of an image gives back its pixels. -/
def Obligations.ImageIsRecoverable : Prop :=
  ∀ pixels : List Pixel, readImage (encodeImage pixels) = some pixels

/-- R148: an image of N ≥ 1 pixels leaves the run counter 0 and gives at least one byte and at most N * 5, or N * 4 when
every alpha is 255, as with three channels. -/
def Obligations.ImageLengthBounds : Prop :=
  ∀ pixels : List Pixel, pixels ≠ [] →
    (encodePrefix freshEncoder pixels.length pixels).1.run = 0
    ∧ 1 ≤ (encodeImage pixels).length
    ∧ (encodeImage pixels).length ≤ pixels.length * 5
    ∧ ((∀ p ∈ pixels, p.a = 255) → (encodeImage pixels).length ≤ pixels.length * 4)

/-- R167: M ≥ 1 repetitions that start with the run counter at 0 give `M / 62` RUN 62 chunks, then one RUN of the rest if
there is a rest, whether they end the image or a pixel that differs comes next. -/
def Obligations.RepetitionsBecomeRunChunks : Prop :=
  ∀ (e : EncoderState) (m : Nat), e.run = 0 → 1 ≤ m →
    encodeFrom e (List.replicate m e.prev) =
      List.replicate (m / 62) 0xFD ++ (if m % 62 = 0 then [] else [0xC0 ||| BitVec.ofNat 8 (m % 62 - 1)])
    ∧ ∀ (px : Pixel) (rest : List Pixel), px ≠ e.prev →
      encodeFrom e (List.replicate m e.prev ++ px :: rest) =
        List.replicate (m / 62) 0xFD ++ (if m % 62 = 0 then [] else [0xC0 ||| BitVec.ofNat 8 (m % 62 - 1)])
          ++ encodeFrom e (px :: rest)

/-- R187: a pixel encoded once with its slot as it left it gives INDEX when it comes back after at least one other pixel, if
no pixel in between has the same hash. -/
def Obligations.RevisitedPixelGivesIndex : Prop :=
  ∀ (e : EncoderState) (px : Pixel) (isLast : Bool) (left : Nat) (between : List Pixel),
    px ≠ e.prev → between ≠ [] → (∀ q ∈ between, pixelHash q ≠ pixelHash px) →
    selectChunk (encodePrefix (encodePixel e px false).1 left between).1 px isLast = some (.index (pixelHash px))

/-! ### Pixel steps of the block -/

/-- R271: ENCODE-done applies EncodePixel to the latched pixel. -/
def Obligations.EncodeDoneAppliesEncodePixel : Prop :=
  ∀ (s : State) (e : EncoderState) (out : List Byte), s.phase = .encode →
    encodePixel s.enc s.pxL s.lastL = (e, out) →
    exec .encodeDone s = .next { s with
      enc := e, pos := s.pos + 1, fin := s.lastL, obuf := out,
      phase := if out ≠ [] then .emit else if s.lastL then .done else .accept }

/-- R160, R161 and R162: a repetition counts, below the cap and before the last pixel, with no output. At the 62nd
repetition, and at a last pixel that is a repetition, one RUN byte with the whole count goes out and the counter is 0. The
cache plays no part and `prev` stays. -/
def Obligations.RepetitionCountsOrFlushes : Prop :=
  ∀ s : State, s.phase = .encode → s.pxL = s.enc.prev → s.enc.run ≤ 61 →
    (s.enc.run ≠ 61 → s.lastL = false →
      exec .encodeDone s = .next { s with
        enc := { s.enc with run := s.enc.run + 1 }, pos := s.pos + 1, fin := false, obuf := [], phase := .accept })
    ∧ (s.enc.run = 61 ∨ s.lastL = true →
      exec .encodeDone s = .next { s with
        enc := { s.enc with run := 0 }, pos := s.pos + 1, fin := s.lastL,
        obuf := [0xC0 ||| BitVec.ofNat 8 s.enc.run], phase := .emit })

/-- R163: a pixel that breaks a pending run emits the RUN byte first, then its own chunk, and the counter is 0; with no run
pending its own chunk alone. The pixel's own chunk is the well-formed one the priority selector chooses for it; no RUN is. -/
def Obligations.BreakFlushesTheRunFirst : Prop :=
  ∀ s : State, s.phase = .encode → s.pxL ≠ s.enc.prev → s.enc.run ≤ 61 →
    ∃ t i, exec .encodeDone s = .next t ∧ selectChunk s.enc s.pxL s.lastL = some i
      ∧ i.wf = true ∧ isChunk i = true ∧ (∀ n, i ≠ .run n)
      ∧ t.obuf = (if 0 < s.enc.run then [0xC0 ||| BitVec.ofNat 8 (s.enc.run - 1)] else []) ++ chunkBytes i
      ∧ t.enc.run = 0 ∧ t.enc.prev = s.pxL ∧ t.phase = .emit

/-- RUN n in its two places, from R163, R164 and R271. At the cap or the last pixel the step emits the RUN byte alone and
changes neither cache nor `prev`, as R164 says of the chunk. On a break RUN n is, in the model's reading (log entry 14,
DEDUCED), the whole step ENCODE-done takes: the RUN byte, then the pixel's own chunk, and `prev` is the pixel. -/
def Obligations.RunChunkCompletes : Prop :=
  ∀ (s : State) (n : Nat), s.phase = .encode →
    (s.pxL = s.enc.prev → n = s.enc.run + 1 → n = 62 ∨ s.lastL = true →
      exec (.run n) s = .next { s with
        enc := { s.enc with run := 0 }, pos := s.pos + 1, fin := s.lastL,
        obuf := [0xC0 ||| BitVec.ofNat 8 (n - 1)], phase := .emit })
    ∧ (s.pxL ≠ s.enc.prev → n = s.enc.run → 0 < n →
      ∃ t, exec (.run n) s = .next t ∧ exec .encodeDone s = .next t
        ∧ t.obuf.head? = some (0xC0 ||| BitVec.ofNat 8 (n - 1)) ∧ t.enc.run = 0 ∧ t.enc.prev = s.pxL)

/-- INDEX i (R182): the slot number goes out, `prev` is the pixel, the run counter 0, the cache as it was. -/
def Obligations.IndexChunkCompletes : Prop :=
  ∀ (s : State) (i : Slot), s.phase = .encode → s.pxL ≠ s.enc.prev → i = pixelHash s.pxL →
    s.enc.cache[i] = s.pxL →
    exec (.index i) s = .next { s with
      enc := { prev := s.pxL, run := 0, cache := s.enc.cache }, pos := s.pos + 1, fin := s.lastL,
      obuf := (if 0 < s.enc.run then [0xC0 ||| BitVec.ofNat 8 (s.enc.run - 1)] else []) ++ [BitVec.ofNat 8 i.val],
      phase := .emit }

/-- DIFF vr,vg,vb (R203): the pixel is stored, one byte with the biased differences goes out. -/
def Obligations.DiffChunkCompletes : Prop :=
  ∀ (s : State) (vr vg vb : Int), s.phase = .encode → s.pxL ≠ s.enc.prev →
    s.enc.cache[pixelHash s.pxL] ≠ s.pxL → s.pxL.a = s.enc.prev.a →
    vr = (s.pxL.r - s.enc.prev.r).toInt → vg = (s.pxL.g - s.enc.prev.g).toInt →
    vb = (s.pxL.b - s.enc.prev.b).toInt →
    -2 ≤ vr ∧ vr ≤ 1 → -2 ≤ vg ∧ vg ≤ 1 → -2 ≤ vb ∧ vb ≤ 1 →
    exec (.diff vr vg vb) s = .next { s with
      enc := { prev := s.pxL, run := 0, cache := s.enc.cache.set (pixelHash s.pxL) s.pxL },
      pos := s.pos + 1, fin := s.lastL,
      obuf := (if 0 < s.enc.run then [0xC0 ||| BitVec.ofNat 8 (s.enc.run - 1)] else [])
        ++ [BitVec.ofInt 8 (64 + (vr + 2) * 16 + (vg + 2) * 4 + (vb + 2))],
      phase := .emit }

/-- LUMA vg,vg_r,vg_b (R204): the pixel is stored, two bytes go out. -/
def Obligations.LumaChunkCompletes : Prop :=
  ∀ (s : State) (vr vg vb vgr vgb : Int), s.phase = .encode → s.pxL ≠ s.enc.prev →
    s.enc.cache[pixelHash s.pxL] ≠ s.pxL → s.pxL.a = s.enc.prev.a →
    vr = (s.pxL.r - s.enc.prev.r).toInt → vg = (s.pxL.g - s.enc.prev.g).toInt →
    vb = (s.pxL.b - s.enc.prev.b).toInt → vgr = vr - vg → vgb = vb - vg →
    ¬((-2 ≤ vr ∧ vr ≤ 1) ∧ (-2 ≤ vg ∧ vg ≤ 1) ∧ (-2 ≤ vb ∧ vb ≤ 1)) →
    -32 ≤ vg ∧ vg ≤ 31 → -8 ≤ vgr ∧ vgr ≤ 7 → -8 ≤ vgb ∧ vgb ≤ 7 →
    exec (.luma vg vgr vgb) s = .next { s with
      enc := { prev := s.pxL, run := 0, cache := s.enc.cache.set (pixelHash s.pxL) s.pxL },
      pos := s.pos + 1, fin := s.lastL,
      obuf := (if 0 < s.enc.run then [0xC0 ||| BitVec.ofNat 8 (s.enc.run - 1)] else [])
        ++ [BitVec.ofInt 8 (128 + (vg + 32)), BitVec.ofInt 8 ((vgr + 8) * 16 + (vgb + 8))],
      phase := .emit }

/-- RGB r,g,b (R230): the pixel is stored, the tag 0xFE and the raw channels go out. -/
def Obligations.RgbChunkCompletes : Prop :=
  ∀ (s : State) (vr vg vb : Int), s.phase = .encode → s.pxL ≠ s.enc.prev →
    s.enc.cache[pixelHash s.pxL] ≠ s.pxL → s.pxL.a = s.enc.prev.a →
    vr = (s.pxL.r - s.enc.prev.r).toInt → vg = (s.pxL.g - s.enc.prev.g).toInt →
    vb = (s.pxL.b - s.enc.prev.b).toInt →
    ¬((-2 ≤ vr ∧ vr ≤ 1) ∧ (-2 ≤ vg ∧ vg ≤ 1) ∧ (-2 ≤ vb ∧ vb ≤ 1)) →
    ¬((-32 ≤ vg ∧ vg ≤ 31) ∧ (-8 ≤ vr - vg ∧ vr - vg ≤ 7) ∧ (-8 ≤ vb - vg ∧ vb - vg ≤ 7)) →
    exec (.rgb s.pxL.r s.pxL.g s.pxL.b) s = .next { s with
      enc := { prev := s.pxL, run := 0, cache := s.enc.cache.set (pixelHash s.pxL) s.pxL },
      pos := s.pos + 1, fin := s.lastL,
      obuf := (if 0 < s.enc.run then [0xC0 ||| BitVec.ofNat 8 (s.enc.run - 1)] else [])
        ++ [0xFE, s.pxL.r, s.pxL.g, s.pxL.b],
      phase := .emit }

/-- RGBA r,g,b,a (R231): a miss whose alpha changed; the pixel is stored, the tag 0xFF and the four channels go out. -/
def Obligations.RgbaChunkCompletes : Prop :=
  ∀ s : State, s.phase = .encode → s.pxL ≠ s.enc.prev →
    s.enc.cache[pixelHash s.pxL] ≠ s.pxL → s.pxL.a ≠ s.enc.prev.a →
    exec (.rgba s.pxL.r s.pxL.g s.pxL.b s.pxL.a) s = .next { s with
      enc := { prev := s.pxL, run := 0, cache := s.enc.cache.set (pixelHash s.pxL) s.pxL },
      pos := s.pos + 1, fin := s.lastL,
      obuf := (if 0 < s.enc.run then [0xC0 ||| BitVec.ofNat 8 (s.enc.run - 1)] else [])
        ++ [0xFF, s.pxL.r, s.pxL.g, s.pxL.b, s.pxL.a],
      phase := .emit }

/-- R141: the pixel step of ENCODE-done is the one of the chunk the priority selector chooses. -/
def Obligations.SelectedChunkIsTheEncodeDoneStep : Prop :=
  ∀ (s : State) (i : Instr), s.phase = .encode → selectChunk s.enc s.pxL s.lastL = some i →
    exec i s = exec .encodeDone s

/-- A chunk that is neither the selected one nor the RUN of a broken run is not emitted and changes nothing; outside ENCODE
no chunk is (the model's reading, log entry 7). -/
def Obligations.UnselectedChunkChangesNothing : Prop :=
  ∀ (s : State) (i : Instr), isChunk i = true →
    s.phase ≠ .encode ∨ (selectChunk s.enc s.pxL s.lastL ≠ some i
      ∧ ¬(s.pxL ≠ s.enc.prev ∧ 0 < s.enc.run ∧ i = .run s.enc.run)) →
    exec i s = .next s

/-- R270: CLEAR-done zeroes every slot and goes to ACCEPT, or to DONE if the encode has no pixels; nothing else changes. -/
def Obligations.ClearDoneZeroesTheCache : Prop :=
  ∀ s : State, s.phase = .clear →
    ∃ cleared : Vector Pixel 64, (∀ i : Slot, cleared[i] = { r := 0, g := 0, b := 0, a := 0 })
      ∧ exec .clearDone s = .next { s with
          enc := { s.enc with cache := cleared }, phase := if s.npix = 0 then .done else .accept }

/-! ### Register accesses -/

/-- R252 and R253, RegWrite(0x0, v). In ACCEPT a byte that does not complete the pixel goes into the latch of its channel and
`k` counts on; the byte that completes it is blue with three channels, alpha 255, and alpha with four. In any other phase
the byte is discarded and OVERRUN, code 1, recorded if no error stands. -/
def Obligations.DataInTakesAChannelByte : Prop :=
  ∀ (s : State) (v : Byte),
    (s.phase = .accept → s.k + 1 ≠ channelCount s.nch →
      exec (.wrDataIn v) s = .next { s with
        inr := if s.k = 0 then v else s.inr
        ing := if s.k = 1 then v else s.ing
        inb := if s.k = 2 then v else s.inb
        k := s.k + 1 })
    ∧ (s.phase = .accept → s.k + 1 = channelCount s.nch →
      exec (.wrDataIn v) s = .next { s with
        inb := if s.k = 2 then v else s.inb
        pxL := if s.nch = .three then { r := s.inr, g := s.ing, b := v, a := 255 }
          else { r := s.inr, g := s.ing, b := s.inb, a := v }
        lastL := decide (s.pos.toNat + 1 = s.npix.toNat)
        k := 0
        phase := .encode })
    ∧ (s.phase ≠ .accept →
      exec (.wrDataIn v) s = .next { s with err := true, errcode := if s.err then s.errcode else 1 })

/-- R74: the channel bytes of a pixel arrive red, green, blue, then alpha with four channels. -/
def Obligations.ChannelBytesArriveInOrder : Prop :=
  ∀ (s : State) (p : Pixel), s.phase = .accept → s.k = 0 →
    ∃ s1 s2 s3, exec (.wrDataIn p.r) s = .next s1 ∧ exec (.wrDataIn p.g) s1 = .next s2
      ∧ exec (.wrDataIn p.b) s2 = .next s3
      ∧ (s.nch = .three → s3.phase = .encode ∧ s3.pxL = { p with a := 255 })
      ∧ (s.nch = .four → s3.phase = .accept
          ∧ ∃ s4, exec (.wrDataIn p.a) s3 = .next s4 ∧ s4.phase = .encode ∧ s4.pxL = p)

/-- R254 and R255, RegRead(0x1). In EMIT it returns the oldest byte and removes it; after the last byte the block goes to
DONE or ACCEPT. In any other phase it returns 0x00, records UNDERRUN, code 2, if no error stands, and changes nothing
else. -/
def Obligations.DataOutPopsTheOldestByte : Prop :=
  ∀ s : State,
    (∀ (v : Byte) (rest : List Byte), s.phase = .emit → s.obuf = v :: rest →
      exec .rdDataOut s = .next { s with
        rdata := v, obuf := rest,
        phase := if rest = [] then (if s.fin then .done else .accept) else .emit })
    ∧ (s.phase ≠ .emit →
      exec .rdDataOut s = .next { s with
        rdata := 0, err := true, errcode := if s.err then s.errcode else 2 })

/-- R256: RegRead(0x0) returns 0x00, RegWrite(0x1, v) and RegWrite(0x2, v) are ignored; no state changes and no error is
recorded. -/
def Obligations.IgnoredAccessesChangeNothing : Prop :=
  ∀ (s : State) (v : Byte),
    exec .rdDataIn s = .next { s with rdata := 0 }
    ∧ exec (.wrDataOut v) s = .next s ∧ exec (.wrStatus v) s = .next s

/-- R257: the bits of STATUS, and no side effect. -/
def Obligations.StatusReadsTheState : Prop :=
  ∀ s : State, ∃ v : Byte, exec .rdStatus s = .next { s with rdata := v }
    ∧ v.getLsbD 0 = decide (s.phase = .accept) ∧ v.getLsbD 1 = decide (s.phase = .emit)
    ∧ v.getLsbD 2 = decide (s.phase = .done) ∧ v.getLsbD 3 = s.err
    ∧ v.extractLsb' 4 2 = s.errcode
    ∧ v.getLsbD 6 = decide (s.phase = .clear ∨ s.phase = .encode) ∧ v.getLsbD 7 = false

/-- R45: at most one of RD_REQ, WR_REQ, DONE and BUSY is 1, and all four are 0 only in IDLE. -/
def Obligations.StatusFlagsExcludeEachOther : Prop :=
  ∀ s : State,
    ([0, 1, 2, 6].filter fun b => (statusByte s).getLsbD b).length ≤ 1
    ∧ ((statusByte s &&& 0x47 = 0) ↔ s.phase = .idle)

/-- R258: CTRL reads CH4 in bit 1 and 0 elsewhere, with no side effect. -/
def Obligations.CtrlReadsChannelBit : Prop :=
  ∀ s : State, exec .rdCtrl s = .next { s with rdata := if s.ch4 then 0x02 else 0x00 }

/-- R259 and R262: a write to CTRL stores CH4 from bit 1; with bit 0 set it then performs START with the new CH4, in any
phase. -/
def Obligations.CtrlWriteStartsAnEncode : Prop :=
  ∀ (s : State) (v : Byte),
    (v.getLsbD 0 = false → exec (.wrCtrl v) s = .next { s with ch4 := v.getLsbD 1 })
    ∧ (v.getLsbD 0 = true →
      exec (.wrCtrl v) s = .next { s with
        ch4 := v.getLsbD 1
        nch := if v.getLsbD 1 then .four else .three
        npix := s.count
        enc := { prev := { r := 0, g := 0, b := 0, a := 255 }, run := 0, cache := s.enc.cache }
        pos := 0, k := 0, obuf := [], fin := false, err := false, errcode := 0, phase := .clear })

/-- R260 with R76: byte j of COUNT reads back what was written to it, the other three bytes stay, and nothing else
changes; a read returns byte j. -/
def Obligations.CountBytesReadBack : Prop :=
  ∀ (s : State) (j : Fin 4) (v : Byte),
    (∃ c : Word32, exec (.wrCount j v) s = .next { s with count := c }
      ∧ c.toNat / 256 ^ j.val % 256 = v.toNat
      ∧ ∀ j' : Fin 4, j' ≠ j → c.toNat / 256 ^ j'.val % 256 = s.count.toNat / 256 ^ j'.val % 256)
    ∧ ∃ b : Byte, exec (.rdCount j) s = .next { s with rdata := b }
        ∧ b.toNat = s.count.toNat / 256 ^ j.val % 256

/-! ### The whole machine -/

/-- R360: hardware reset, at any time, sets every item to its reset value. The cache and the pixel latches, of which R52
gives no value, are not part of this statement. -/
def Obligations.HardwareResetValues : Prop :=
  ∀ (s : State) (rest : List Event), s.inputs = .reset :: rest →
    ∃ t, step s = .next t
      ∧ t.phase = .idle ∧ t.enc.prev = { r := 0, g := 0, b := 0, a := 255 } ∧ t.enc.run = 0 ∧ t.pos = 0
      ∧ t.k = 0 ∧ t.obuf = [] ∧ t.fin = false ∧ t.nch = .four ∧ t.npix = 0 ∧ t.ch4 = true ∧ t.count = 0
      ∧ t.err = false ∧ t.errcode = 0

/-- The invariant of the block's runs holds after hardware reset. -/
def Obligations.ResetMeetsBlockInv : Prop := BlockInv State.reset

/-- Every step keeps the invariant (R53, R31, R185, R232), from every state that has it. -/
def Obligations.EveryStepKeepsBlockInv : Prop :=
  ∀ s t : State, BlockInv s → step s = .next t → BlockInv t

/-- R53: the invariants in every state reachable from hardware reset. -/
def Obligations.ReachableStatesMeetTheInvariants : Prop :=
  ∀ s : State, Reachable s →
    (s.phase = .accept → s.obuf = [] ∧ s.pos.toNat < s.npix.toNat ∧ s.k < channelCount s.nch)
    ∧ (s.phase = .encode → s.pos.toNat < s.npix.toNat ∧ s.k = 0)
    ∧ (s.phase = .emit → s.obuf ≠ [] ∧ s.obuf.length ≤ 6)
    ∧ (s.phase = .done → s.obuf = [] ∧ s.pos = s.npix)
    ∧ (s.phase ≠ .encode → s.enc.run ≤ 61)
    ∧ (s.fin = true → s.enc.run = 0 ∧ s.pos = s.npix)

/-- No operation is refused in any state, and the one fault is a read of DATA_OUT in EMIT with an empty buffer (log entry 6),
which the invariant rules out: with it every operation goes on to a next state. -/
def Obligations.EveryOperationGoesOn : Prop :=
  ∀ (s : State) (i : Instr),
    (if i = .rdDataOut ∧ s.phase = .emit ∧ s.obuf = [] then exec i s = .fault .emptyOutputBuffer
      else ∃ t, exec i s = .next t)
    ∧ (BlockInv s → ∃ t, exec i s = .next t)

/-- R49: the first protocol error since START sets ERR and its code, a later one changes neither, and only START and
hardware reset clear them. An error is a DATA_IN write or a DATA_OUT read out of turn (R331), so a host that keeps the
handshake records none (R370). -/
def Obligations.ErrorRecordKeepsTheFirstError : Prop :=
  (∀ (s t : State) (i : Instr), exec i s = .next t →
    (isStart i = true → t.err = false ∧ t.errcode = 0)
    ∧ (isStart i = false → s.err = true → t.err = true ∧ t.errcode = s.errcode)
    ∧ (isStart i = false → s.err = false →
        (inTurn i s → t.err = false ∧ t.errcode = s.errcode)
        ∧ (¬inTurn i s → t.err = true ∧ t.errcode = if i = .rdDataOut then 2 else 1)))
  ∧ ∀ (s : State) (rest : List Event), s.inputs = .reset :: rest →
      ∃ t, step s = .next t ∧ t.err = false ∧ t.errcode = 0

/-- R41: START latches the channel count from CH4 and the pixel count from COUNT, and neither changes until the next
START. -/
def Obligations.LatchedConfigurationStays : Prop :=
  ∀ (s t : State) (i : Instr), exec i s = .next t →
    (isStart i = true → t.nch = (if t.ch4 then .four else .three) ∧ t.npix = s.count ∧ t.count = s.count)
    ∧ (isStart i = false → t.nch = s.nch ∧ t.npix = s.npix)

/-- R362: START and CLEAR-done give the start state of EncodePixel, whatever the block did before. -/
def Obligations.StartResetsTheEncoder : Prop :=
  ∀ (s : State) (v : Byte), v.getLsbD 0 = true →
    ∃ t u, exec (.wrCtrl v) s = .next t ∧ exec .clearDone t = .next u
      ∧ u.enc.prev = { r := 0, g := 0, b := 0, a := 255 } ∧ u.enc.run = 0
      ∧ ∀ i : Slot, u.enc.cache[i] = { r := 0, g := 0, b := 0, a := 0 }

/-- R188 and R51: a host access other than START leaves `prev`, `run` and the cache, and even START leaves the cache. -/
def Obligations.HostAccessesLeaveTheCoreState : Prop :=
  ∀ (s t : State) (i : Instr), isHostAccess i = true → exec i s = .next t →
    t.enc.cache = s.enc.cache ∧ (isStart i = false → t.enc = s.enc)

/-- R371 and R372: a busy block stays busy through every host access but START, so its step stays enabled; and with no
event to come the next step ends the phase (the model's schedule, log entry 4). -/
def Obligations.EnabledInternalStepIsTaken : Prop :=
  (∀ (s t : State) (i : Instr), isHostAccess i = true → isStart i = false → exec i s = .next t →
    busy s.phase = true → t.phase = s.phase)
  ∧ (∀ s : State, s.inputs = [] → busy s.phase = true → ∃ t, step s = .next t ∧ busy t.phase = false)

/-- R361, R52, U6: the cache contents before CLEAR-done are never read. Two states that differ only in the cache, in IDLE or
CLEAR, go to the same state or again to two such states under every operation, and return the same value. -/
def Obligations.CacheIsUnobservableBeforeClear : Prop :=
  ∀ (s : State) (c : Vector Pixel 64) (i : Instr), s.phase = .idle ∨ s.phase = .clear →
    ∃ t c', exec i s = .next t
      ∧ exec i { s with enc := { s.enc with cache := c } } = .next { t with enc := { t.enc with cache := c' } }
      ∧ (c' = t.enc.cache ∨ (c' = c ∧ (t.phase = .idle ∨ t.phase = .clear)))

/-- R273, its inductive form. START begins an encode of which nothing is delivered and nothing read. From there on, in
whatever order host accesses and internal steps come, the bytes read and the bytes still to be read are those EncodePixel
gives for the pixels delivered, as long as no error stands (93 U8). -/
def Obligations.EveryOperationKeepsTracking : Prop :=
  ∀ (s t : State) (i : Instr), exec i s = .next t →
    (isStart i = true → Tracks [] [] t)
    ∧ ∀ (pixels : List Pixel) (out : List Byte), isStart i = false → t.err = false → Tracks pixels out s →
      Tracks (pixelsAfter i s pixels) (outAfter i s t out) t

/-- R273, its conclusion: in DONE with ERR 0 the bytes read since START are the encoding of the delivered image. -/
def Obligations.TrackedEncodeEndsWithTheImage : Prop :=
  ∀ (s : State) (pixels : List Pixel) (out : List Byte), s.phase = .done → s.err = false → Tracks pixels out s →
    out = encodeImage pixels ∧ pixels.length = s.npix.toNat ∧ s.obuf = []

/-- R363 and R273 on one schedule: a host that follows the start-up order gets the encoding of its image from any state, and
the block ends in DONE without an error. -/
def Obligations.HostGetsTheEncodedImage : Prop :=
  ∀ (s : State) (c : Bool) (pixels : List Pixel), pixels ≠ [] → pixels.length < 2 ^ 32 →
    ∃ t, encodeOnBlock c pixels s =
        some (encodeImage (if c then pixels else pixels.map fun p => { p with a := 255 }), t)
      ∧ t.phase = .done ∧ t.err = false ∧ t.obuf = []

/-! ### Host-side framing -/

/-- R300: each condition alone makes a descriptor invalid, and a descriptor with none of them is valid. R301: MAX_PIXELS
meets its bound, so the worst-case size and the pixel count of a valid descriptor fit in 32 bits. -/
def Obligations.DescriptorValidation : Prop :=
  ∀ (maxPixels : Config.MaxPixels) (allocated : Bool) (d : Descriptor) (buffer : List Byte),
    ((d.width = 0 ∨ d.height = 0 ∨ ¬(d.channels = 3 ∨ d.channels = 4)
        ∨ ¬(d.colorspace = 0 ∨ d.colorspace = 1) ∨ maxPixels.val < d.width * d.height) ↔
      assembleStream maxPixels allocated d buffer = .error .invalidDescriptor)
    ∧ maxPixels.val * 5 + 22 ≤ 2 ^ 32 - 1
    ∧ (validDescriptor maxPixels d = true → bufferSize d ≤ 2 ^ 32 - 1 ∧ d.width * d.height < 2 ^ 32)

/-- R304: the 14 header bytes, width and height most-significant byte first. The bound on MAX_PIXELS (R301) makes both fit
four bytes. -/
def Obligations.HeaderHoldsTheDescriptor : Prop :=
  ∀ (maxPixels : Config.MaxPixels) (d : Descriptor), validDescriptor maxPixels d = true →
    ∃ w3 w2 w1 w0 h3 h2 h1 h0 c s : Byte,
      header d = [0x71, 0x6F, 0x69, 0x66, w3, w2, w1, w0, h3, h2, h1, h0, c, s]
      ∧ ((w3.toNat * 256 + w2.toNat) * 256 + w1.toNat) * 256 + w0.toNat = d.width
      ∧ ((h3.toNat * 256 + h2.toNat) * 256 + h1.toNat) * 256 + h0.toNat = d.height
      ∧ c.toNat = d.channels ∧ s.toNat = d.colorspace

/-- R310 and R308: the stream of a valid descriptor begins with the magic bytes, ends with the end marker, reports its
length, and has 23 to N * (channels + 1) + 22 bytes; up to 62 default pixels give one chunk byte, so 23 is met. -/
def Obligations.StreamLengthBounds : Prop :=
  (∀ m : Nat, 1 ≤ m → m ≤ 62 → (encodeImage (List.replicate m { r := 0, g := 0, b := 0, a := 255 })).length = 1)
  ∧ ∀ (maxPixels : Config.MaxPixels) (d : Descriptor) (buffer : List Byte), validDescriptor maxPixels d = true →
    buffer.length = d.width * d.height * d.channels →
    ∃ stream n, assembleStream maxPixels true d buffer = .ok (stream, n) ∧ n = stream.length
      ∧ 23 ≤ n ∧ n ≤ d.width * d.height * (d.channels + 1) + 22
      ∧ bufferSize d = d.width * d.height * (d.channels + 1) + 22
      ∧ stream.take 4 = [0x71, 0x6F, 0x69, 0x66]
      ∧ stream.drop (n - 8) = [0, 0, 0, 0, 0, 0, 0, 1]

/-- R307 with the block, on the schedule of log entry 10: the bytes of the channel buffer are those written to DATA_IN, in
order, and the stream and its length are those of the software loop, from any state of the block, which ends in DONE without
an error. On either error of R303 the host stops as the software loop does, without the block. -/
def Obligations.BlockGivesTheAssembledStream : Prop :=
  ∀ (maxPixels : Config.MaxPixels) (allocated : Bool) (d : Descriptor) (buffer : List Byte) (s : State),
    (validDescriptor maxPixels d = true → allocated = true → buffer.length = d.width * d.height * d.channels →
      (imagePixels d buffer).length = d.width * d.height
      ∧ (imagePixels d buffer).flatMap (channelBytes (channelsOf d.ch4)) = buffer
      ∧ ∃ r t, assembleStream maxPixels allocated d buffer = .ok r
        ∧ assembleOnBlock maxPixels allocated d buffer s = .ok (some (r, t))
        ∧ t.phase = .done ∧ t.err = false ∧ t.obuf = [])
    ∧ (∀ e, assembleStream maxPixels allocated d buffer = .error e →
        assembleOnBlock maxPixels allocated d buffer s = .error e)
end

