-- ==== Sys2Proof/Laws/Decode.lean ====
section
/-! SUPPORT. What the chunk fields and the window say, once: bounds of a field, each chunk kind read off the front of a byte
list, each byte's own kind, the register of an offset. -/

namespace Sys2Proof

open Sys2Proof.Machine

theorem bits_lt (v : Byte) (hi lo : Nat) : bits v hi lo < 2 ^ (hi + 1 - lo) :=
  Nat.mod_lt _ (by positivity)

/-- The first byte of a LUMA chunk (R104). -/
def lumaByte0 (vg : Int) : Byte := 0x80#8 ||| BitVec.ofInt 8 (vg + 32)

/-- The second byte of a LUMA chunk (R104). -/
def lumaByte1 (vgr vgb : Int) : Byte := BitVec.ofInt 8 (vgr + 8) <<< 4 ||| BitVec.ofInt 8 (vgb + 8)

theorem lumaBytes_eq (vg vgr vgb : Int) : lumaBytes vg vgr vgb = [lumaByte0 vg, lumaByte1 vgr vgb] := rfl

/-- R101: a byte that is no full-byte tag is the first byte of exactly the kind its two top bits say, built back from its
fields. -/
theorem byte_is_one_kind : ∀ b : Byte, b ≠ Config.tagRgba → b ≠ Config.tagRgb →
    (bits b 7 6 = 0 ∧ indexByte (Fin.ofNat 64 (bits b 5 0)) = b)
    ∨ (bits b 7 6 = 1 ∧ diffByte (bits b 5 4 - 2) (bits b 3 2 - 2) (bits b 1 0 - 2) = b)
    ∨ (bits b 7 6 = 2 ∧ lumaByte0 (bits b 5 0 - 32) = b)
    ∨ (bits b 7 6 = 3 ∧ runByte (bits b 5 0 + 1) = b ∧ bits b 5 0 + 1 ≤ 62) := by decide

/-- Every byte is the second byte of a LUMA chunk (R104). -/
theorem lumaByte1_of_bits : ∀ b : Byte, lumaByte1 (bits b 7 4 - 8) (bits b 3 0 - 8) = b := by decide

/-- The fields of an INDEX byte (R102). -/
theorem indexByte_fields : ∀ i : Slot,
    indexByte i ≠ Config.tagRgba ∧ indexByte i ≠ Config.tagRgb ∧ bits (indexByte i) 7 6 = 0
      ∧ Fin.ofNat 64 (bits (indexByte i) 5 0) = i := by decide

/-- The fields of a DIFF byte (R103), by its stored values. -/
theorem diffByte_fields : ∀ a b c : Fin 4,
    let v := diffByte ((a.val : Int) - 2) ((b.val : Int) - 2) ((c.val : Int) - 2)
    v ≠ Config.tagRgba ∧ v ≠ Config.tagRgb ∧ bits v 7 6 = 1
      ∧ bits v 5 4 = a.val ∧ bits v 3 2 = b.val ∧ bits v 1 0 = c.val := by decide

/-- The fields of the first LUMA byte (R104), by its stored value. -/
theorem lumaByte0_fields : ∀ a : Fin 64,
    let v := lumaByte0 ((a.val : Int) - 32)
    v ≠ Config.tagRgba ∧ v ≠ Config.tagRgb ∧ bits v 7 6 = 2 ∧ bits v 5 0 = a.val := by decide

/-- The fields of the second LUMA byte (R104), by its stored values. -/
theorem lumaByte1_fields : ∀ a b : Fin 16,
    let v := lumaByte1 ((a.val : Int) - 8) ((b.val : Int) - 8)
    bits v 7 4 = a.val ∧ bits v 3 0 = b.val := by decide

/-- The fields of a RUN byte (R105), by its stored value. -/
theorem runByte_fields : ∀ a : Fin 62,
    let v := runByte (a.val + 1)
    v ≠ Config.tagRgba ∧ v ≠ Config.tagRgb ∧ bits v 7 6 = 3 ∧ bits v 5 0 = a.val := by decide

/-- A bounded integer is its stored value less the bias (R108). -/
theorem stored_of_bounds (v bias : Int) (n : Nat) (h1 : -bias ≤ v) (h2 : v < n - bias) :
    ∃ a : Fin n, v = (a.val : Int) - bias :=
  ⟨⟨(v + bias).toNat, by omega⟩, by simp; omega⟩

/-- The range of a DIFF field as a statement (R108). -/
theorem inDiffRange_iff (v : Int) : inDiffRange v = true ↔ -2 ≤ v ∧ v ≤ 1 := decide_eq_true_iff

/-- The range of the LUMA green field as a statement (R108). -/
theorem inLumaGreenRange_iff (v : Int) : inLumaGreenRange v = true ↔ -32 ≤ v ∧ v ≤ 31 := decide_eq_true_iff

/-- The range of the two other LUMA fields as a statement (R108). -/
theorem inLumaRange_iff (v : Int) : inLumaRange v = true ↔ -8 ≤ v ∧ v ≤ 7 := decide_eq_true_iff

/-- The range of a run length as a statement (R105). -/
theorem inRunRange_iff (n : Nat) : inRunRange n = true ↔ 1 ≤ n ∧ n ≤ 62 := decide_eq_true_iff

/-- R42: offsets 4 to 7 read the bytes of COUNT. -/
theorem decodeRead_count (j : Fin 4) : decodeRead (4 + j.val) = .rdCount j := by
  match j with
  | 0 => rfl
  | 1 => rfl
  | 2 => rfl
  | 3 => rfl

/-- R42: offsets 4 to 7 write the bytes of COUNT. -/
theorem decodeWrite_count (j : Fin 4) (v : Byte) : decodeWrite (4 + j.val) v = .wrCount j v := by
  match j with
  | 0 => rfl
  | 1 => rfl
  | 2 => rfl
  | 3 => rfl

/-- A single-byte read inside the window decodes to its register's read (R42). -/
theorem decode_readEvent (p : Phase) (offset : Nat) (h : offset < 8) :
    decode p (readEvent offset) = .ok (decodeRead offset) := by
  simp [decode, decodeAccess, readEvent]; omega

/-- A single-byte write inside the window decodes to its register's write (R42). -/
theorem decode_writeEvent (p : Phase) (offset : Nat) (v : Byte) (h : offset < 8) :
    decode p (writeEvent offset v) = .ok (decodeWrite offset v) := by
  simp [decode, decodeAccess, writeEvent]; omega

/-! ### One chunk off the front of a byte list (R101, R108, R109) -/

theorem decodeChunk_index (i : Slot) (rest : List Byte) :
    decodeChunk (indexByte i :: rest) = .ok (.index i, rest) := by
  obtain ⟨h1, h2, h3, h4⟩ := indexByte_fields i
  simp only [decodeChunk, h1, h2, h3, h4, if_false]

theorem decodeChunk_diff (vr vg vb : Int) (rest : List Byte) (hr : inDiffRange vr = true)
    (hg : inDiffRange vg = true) (hb : inDiffRange vb = true) :
    decodeChunk (diffByte vr vg vb :: rest) = .ok (.diff vr vg vb, rest) := by
  rw [inDiffRange_iff] at hr hg hb
  obtain ⟨a, rfl⟩ := stored_of_bounds vr 2 4 (by omega) (by omega)
  obtain ⟨b, rfl⟩ := stored_of_bounds vg 2 4 (by omega) (by omega)
  obtain ⟨c, rfl⟩ := stored_of_bounds vb 2 4 (by omega) (by omega)
  obtain ⟨h1, h2, h3, h4, h5, h6⟩ := diffByte_fields a b c
  simp only [decodeChunk, h1, h2, h3, h4, h5, h6, if_false]

theorem decodeChunk_luma (vg vgr vgb : Int) (rest : List Byte) (hg : inLumaGreenRange vg = true)
    (hr : inLumaRange vgr = true) (hb : inLumaRange vgb = true) :
    decodeChunk (lumaBytes vg vgr vgb ++ rest) = .ok (.luma vg vgr vgb, rest) := by
  rw [inLumaGreenRange_iff] at hg
  rw [inLumaRange_iff] at hr hb
  obtain ⟨a, rfl⟩ := stored_of_bounds vg 32 64 (by omega) (by omega)
  obtain ⟨b, rfl⟩ := stored_of_bounds vgr 8 16 (by omega) (by omega)
  obtain ⟨c, rfl⟩ := stored_of_bounds vgb 8 16 (by omega) (by omega)
  obtain ⟨h1, h2, h3, h4⟩ := lumaByte0_fields a
  obtain ⟨h5, h6⟩ := lumaByte1_fields b c
  simp only [lumaBytes_eq, List.cons_append, List.nil_append, decodeChunk, h1, h2, h3, h4, h5, h6, if_false]

theorem decodeChunk_run (n : Nat) (rest : List Byte) (h : inRunRange n = true) :
    decodeChunk (runByte n :: rest) = .ok (.run n, rest) := by
  rw [inRunRange_iff] at h
  obtain ⟨a, rfl⟩ : ∃ a : Fin 62, n = a.val + 1 := ⟨⟨n - 1, by omega⟩, by simp; omega⟩
  obtain ⟨h1, h2, h3, h4⟩ := runByte_fields a
  simp only [decodeChunk, h1, h2, h3, h4, if_false]

theorem decodeChunk_rgb (r g b : Byte) (rest : List Byte) :
    decodeChunk (rgbBytes r g b ++ rest) = .ok (.rgb r g b, rest) := by
  simp [rgbBytes, decodeChunk, Config.tagRgb, Config.tagRgba]

theorem decodeChunk_rgba (r g b a : Byte) (rest : List Byte) :
    decodeChunk (rgbaBytes r g b a ++ rest) = .ok (.rgba r g b a, rest) := by
  simp [rgbaBytes, decodeChunk, Config.tagRgba]

end Sys2Proof
end

