-- ==== Sys2Proof/Laws/Pixel.lean ====
section
/-! SUPPORT. What the pixel arithmetic and the parts of EncodePixel give: the differences, the range tests as statements,
the packed bytes as numbers, the chunk of a miss, the lengths, the cache after a store. -/

namespace Sys2Proof.Machine

/-- A difference of 0 means equal channels (R200). -/
theorem eq_of_delta_eq_zero (now before : Byte) (h : delta now before = 0) : now = before := by
  have h1 := now.isLt
  have h2 := before.isLt
  apply BitVec.eq_of_toNat_eq
  simp only [delta, s8] at h
  split at h <;> omega

/-- R206: the difference added back gives the channel. -/
theorem addDelta_delta (now before : Byte) : addDelta before (delta now before) = now := by
  have h1 := now.isLt
  have h2 := before.isLt
  apply BitVec.eq_of_toNat_eq
  simp only [addDelta, delta, s8, BitVec.toNat_ofInt]
  split <;> omega

/-- The DIFF condition as a statement (R203). -/
theorem diffFits_iff (vr vg vb : Int) :
    diffFits vr vg vb = true ↔ (-2 ≤ vr ∧ vr ≤ 1) ∧ (-2 ≤ vg ∧ vg ≤ 1) ∧ (-2 ≤ vb ∧ vb ≤ 1) := by
  simp only [diffFits, Bool.and_eq_true, inDiffRange_iff, and_assoc]

/-- The LUMA condition as a statement (R204). -/
theorem lumaFits_iff (vr vg vb : Int) :
    lumaFits vr vg vb = true ↔
      (-32 ≤ vg ∧ vg ≤ 31) ∧ (-8 ≤ vr - vg ∧ vr - vg ≤ 7) ∧ (-8 ≤ vb - vg ∧ vb - vg ≤ 7) := by
  simp only [lumaFits, Bool.and_eq_true, inLumaGreenRange_iff, inLumaRange_iff, and_assoc]

/-- The DIFF byte as a number: no field overflows into the next (R103, R108). -/
theorem diffByte_eq_sum (vr vg vb : Int) (h : diffFits vr vg vb = true) :
    diffByte vr vg vb = BitVec.ofInt 8 (64 + (vr + 2) * 16 + (vg + 2) * 4 + (vb + 2)) := by
  rw [diffFits_iff] at h
  obtain ⟨a, rfl⟩ := stored_of_bounds vr 2 4 (by omega) (by omega)
  obtain ⟨b, rfl⟩ := stored_of_bounds vg 2 4 (by omega) (by omega)
  obtain ⟨c, rfl⟩ := stored_of_bounds vb 2 4 (by omega) (by omega)
  clear h
  revert a b c
  decide

/-- The LUMA bytes as numbers (R104, R108). -/
theorem lumaBytes_eq_sum (vg vgr vgb : Int) (hg : -32 ≤ vg ∧ vg ≤ 31) (hr : -8 ≤ vgr ∧ vgr ≤ 7)
    (hb : -8 ≤ vgb ∧ vgb ≤ 7) :
    lumaBytes vg vgr vgb = [BitVec.ofInt 8 (128 + (vg + 32)), BitVec.ofInt 8 ((vgr + 8) * 16 + (vgb + 8))] := by
  obtain ⟨a, rfl⟩ := stored_of_bounds vg 32 64 (by omega) (by omega)
  obtain ⟨b, rfl⟩ := stored_of_bounds vgr 8 16 (by omega) (by omega)
  obtain ⟨c, rfl⟩ := stored_of_bounds vgb 8 16 (by omega) (by omega)
  have h0 : ∀ a : Fin 64, lumaByte0 ((a.val : Int) - 32) = BitVec.ofInt 8 (128 + ((a.val : Int) - 32 + 32)) := by decide
  have h1 : ∀ b c : Fin 16, lumaByte1 ((b.val : Int) - 8) ((c.val : Int) - 8)
      = BitVec.ofInt 8 (((b.val : Int) - 8 + 8) * 16 + ((c.val : Int) - 8 + 8)) := by decide
  rw [lumaBytes_eq, h0, h1]

/-- The chunk of a miss is one of four well-formed kinds, of 1 to 5 bytes, at most 4 when alpha is as before (R141, R146). -/
theorem missChunk_spec (prev px : Pixel) :
    (missChunk prev px).wf = true ∧ isChunk (missChunk prev px) = true
      ∧ 1 ≤ (chunkBytes (missChunk prev px)).length ∧ (chunkBytes (missChunk prev px)).length ≤ 5
      ∧ (px.a = prev.a → (chunkBytes (missChunk prev px)).length ≤ 4
          ∧ ∀ r g b a, missChunk prev px ≠ .rgba r g b a)
      ∧ ∀ n, missChunk prev px ≠ .run n := by
  unfold missChunk
  split
  · dsimp only
    split
    · rename_i h
      exact ⟨h, rfl, by simp [chunkBytes]⟩
    · split
      · rename_i h
        exact ⟨h, rfl, by simp [chunkBytes, lumaBytes]⟩
      · exact ⟨rfl, rfl, by simp [chunkBytes, rgbBytes]⟩
  · rename_i h
    exact ⟨rfl, rfl, by simp [chunkBytes, rgbaBytes, h]⟩

/-- A flush is at most one byte (R163). -/
theorem flushBytes_length (run : Nat) : (flushBytes run).length ≤ 1 := by
  unfold flushBytes
  split <;> simp

/-- A pixel that is no repetition: 1 to 5 bytes of its own, at most 4 when alpha is as before, run 0, and it is `prev`. -/
theorem ownChunk_spec (e : EncoderState) (px : Pixel) :
    1 ≤ (ownChunk e px).2.length ∧ (ownChunk e px).2.length ≤ 5
      ∧ (px.a = e.prev.a → (ownChunk e px).2.length ≤ 4)
      ∧ (ownChunk e px).1.run = 0 ∧ (ownChunk e px).1.prev = px := by
  have h := missChunk_spec e.prev px
  unfold ownChunk
  split
  · simp [advance]
  · exact ⟨h.2.2.1, h.2.2.2.1, fun ha => (h.2.2.2.2.1 ha).1, rfl, rfl⟩

/-- The slot of the cleared pixel (R185). -/
theorem pixelHash_zeroPixel : pixelHash zeroPixel = 0 := by decide

/-- A store keeps the form of the cache (R183, R185). -/
theorem cache_form_store (d : Vector Pixel 64) (px : Pixel)
    (h : ∀ i : Slot, d[i] = zeroPixel ∨ pixelHash d[i] = i) (i : Slot) :
    (d.set (pixelHash px) px)[i] = zeroPixel ∨ pixelHash (d.set (pixelHash px) px)[i] = i := by
  by_cases hi : i = pixelHash px
  · subst hi
    right
    simp
  · have hj : (d.set (pixelHash px) px)[i] = d[i] := by
      simp only [Fin.getElem_fin]
      rw [Vector.getElem_set_ne]
      intro h'
      exact hi (Fin.ext h'.symm)
    rw [hj]
    exact h i

/-- A pixel step keeps the form of the cache (R185). -/
theorem cache_form_encodePixel (e : EncoderState) (px : Pixel) (isLast : Bool)
    (h : ∀ i : Slot, e.cache[i] = zeroPixel ∨ pixelHash e.cache[i] = i) (i : Slot) :
    (encodePixel e px isLast).1.cache[i] = zeroPixel ∨ pixelHash (encodePixel e px isLast).1.cache[i] = i := by
  unfold encodePixel
  split
  · dsimp only
    split <;> exact h i
  · simp only [ownChunk]
    split
    · exact h i
    · exact cache_form_store _ _ h i

/-- R149 on the miss path: the reader of the chunk gets the pixel and the same cache. -/
theorem readChunk_missChunk (e : EncoderState) (px : Pixel) :
    readChunk { prev := e.prev, cache := e.cache } (missChunk e.prev px)
      = ({ prev := px, cache := e.cache.set (pixelHash px) px }, [px]) := by
  unfold missChunk
  split
  · rename_i ha
    dsimp only
    split
    · simp [readChunk, addDelta_delta, ← ha, keepPixel]
    · split
      · simp [readChunk, addDelta_delta, ← ha, keepPixel]
      · simp [readChunk, ← ha, keepPixel]
  · simp [readChunk, keepPixel]

end Sys2Proof.Machine
end

