-- ==== Sys2Proof/Laws/State.lean ====
section
/-! SUPPORT. One lemma per field per update of the shared operations, so that no proof unfolds a record update. -/

namespace Sys2Proof.Machine

/-! ### returnByte -/

@[simp] theorem returnByte_enc (v : Byte) (s : State) :
    (returnByte v s).enc = s.enc := rfl

@[simp] theorem returnByte_phase (v : Byte) (s : State) :
    (returnByte v s).phase = s.phase := rfl

@[simp] theorem returnByte_pos (v : Byte) (s : State) :
    (returnByte v s).pos = s.pos := rfl

@[simp] theorem returnByte_k (v : Byte) (s : State) :
    (returnByte v s).k = s.k := rfl

@[simp] theorem returnByte_inr (v : Byte) (s : State) :
    (returnByte v s).inr = s.inr := rfl

@[simp] theorem returnByte_ing (v : Byte) (s : State) :
    (returnByte v s).ing = s.ing := rfl

@[simp] theorem returnByte_inb (v : Byte) (s : State) :
    (returnByte v s).inb = s.inb := rfl

@[simp] theorem returnByte_pxL (v : Byte) (s : State) :
    (returnByte v s).pxL = s.pxL := rfl

@[simp] theorem returnByte_lastL (v : Byte) (s : State) :
    (returnByte v s).lastL = s.lastL := rfl

@[simp] theorem returnByte_obuf (v : Byte) (s : State) :
    (returnByte v s).obuf = s.obuf := rfl

@[simp] theorem returnByte_fin (v : Byte) (s : State) :
    (returnByte v s).fin = s.fin := rfl

@[simp] theorem returnByte_nch (v : Byte) (s : State) :
    (returnByte v s).nch = s.nch := rfl

@[simp] theorem returnByte_npix (v : Byte) (s : State) :
    (returnByte v s).npix = s.npix := rfl

@[simp] theorem returnByte_ch4 (v : Byte) (s : State) :
    (returnByte v s).ch4 = s.ch4 := rfl

@[simp] theorem returnByte_count (v : Byte) (s : State) :
    (returnByte v s).count = s.count := rfl

@[simp] theorem returnByte_err (v : Byte) (s : State) :
    (returnByte v s).err = s.err := rfl

@[simp] theorem returnByte_errcode (v : Byte) (s : State) :
    (returnByte v s).errcode = s.errcode := rfl

@[simp] theorem returnByte_rdata (v : Byte) (s : State) :
    (returnByte v s).rdata = v := rfl

@[simp] theorem returnByte_inputs (v : Byte) (s : State) :
    (returnByte v s).inputs = s.inputs := rfl

/-! ### latchPixel -/

@[simp] theorem latchPixel_enc (v : Byte) (s : State) :
    (latchPixel v s).enc = s.enc := rfl

@[simp] theorem latchPixel_phase (v : Byte) (s : State) :
    (latchPixel v s).phase = .encode := rfl

@[simp] theorem latchPixel_pos (v : Byte) (s : State) :
    (latchPixel v s).pos = s.pos := rfl

@[simp] theorem latchPixel_k (v : Byte) (s : State) :
    (latchPixel v s).k = 0 := rfl

@[simp] theorem latchPixel_inr (v : Byte) (s : State) :
    (latchPixel v s).inr = s.inr := rfl

@[simp] theorem latchPixel_ing (v : Byte) (s : State) :
    (latchPixel v s).ing = s.ing := rfl

@[simp] theorem latchPixel_inb (v : Byte) (s : State) :
    (latchPixel v s).inb = s.inb := rfl

@[simp] theorem latchPixel_pxL (v : Byte) (s : State) :
    (latchPixel v s).pxL = { r := s.inr, g := s.ing, b := s.inb, a := alphaOf s.nch v } := rfl

@[simp] theorem latchPixel_lastL (v : Byte) (s : State) :
    (latchPixel v s).lastL = atLastPixel s := rfl

@[simp] theorem latchPixel_obuf (v : Byte) (s : State) :
    (latchPixel v s).obuf = s.obuf := rfl

@[simp] theorem latchPixel_fin (v : Byte) (s : State) :
    (latchPixel v s).fin = s.fin := rfl

@[simp] theorem latchPixel_nch (v : Byte) (s : State) :
    (latchPixel v s).nch = s.nch := rfl

@[simp] theorem latchPixel_npix (v : Byte) (s : State) :
    (latchPixel v s).npix = s.npix := rfl

@[simp] theorem latchPixel_ch4 (v : Byte) (s : State) :
    (latchPixel v s).ch4 = s.ch4 := rfl

@[simp] theorem latchPixel_count (v : Byte) (s : State) :
    (latchPixel v s).count = s.count := rfl

@[simp] theorem latchPixel_err (v : Byte) (s : State) :
    (latchPixel v s).err = s.err := rfl

@[simp] theorem latchPixel_errcode (v : Byte) (s : State) :
    (latchPixel v s).errcode = s.errcode := rfl

@[simp] theorem latchPixel_rdata (v : Byte) (s : State) :
    (latchPixel v s).rdata = s.rdata := rfl

@[simp] theorem latchPixel_inputs (v : Byte) (s : State) :
    (latchPixel v s).inputs = s.inputs := rfl

/-! ### popByte -/

@[simp] theorem popByte_enc (v : Byte) (rest : List Byte) (s : State) :
    (popByte v rest s).enc = s.enc := rfl

@[simp] theorem popByte_phase (v : Byte) (rest : List Byte) (s : State) :
    (popByte v rest s).phase = if rest = [] then afterDrain s.fin else s.phase := rfl

@[simp] theorem popByte_pos (v : Byte) (rest : List Byte) (s : State) :
    (popByte v rest s).pos = s.pos := rfl

@[simp] theorem popByte_k (v : Byte) (rest : List Byte) (s : State) :
    (popByte v rest s).k = s.k := rfl

@[simp] theorem popByte_inr (v : Byte) (rest : List Byte) (s : State) :
    (popByte v rest s).inr = s.inr := rfl

@[simp] theorem popByte_ing (v : Byte) (rest : List Byte) (s : State) :
    (popByte v rest s).ing = s.ing := rfl

@[simp] theorem popByte_inb (v : Byte) (rest : List Byte) (s : State) :
    (popByte v rest s).inb = s.inb := rfl

@[simp] theorem popByte_pxL (v : Byte) (rest : List Byte) (s : State) :
    (popByte v rest s).pxL = s.pxL := rfl

@[simp] theorem popByte_lastL (v : Byte) (rest : List Byte) (s : State) :
    (popByte v rest s).lastL = s.lastL := rfl

@[simp] theorem popByte_obuf (v : Byte) (rest : List Byte) (s : State) :
    (popByte v rest s).obuf = rest := rfl

@[simp] theorem popByte_fin (v : Byte) (rest : List Byte) (s : State) :
    (popByte v rest s).fin = s.fin := rfl

@[simp] theorem popByte_nch (v : Byte) (rest : List Byte) (s : State) :
    (popByte v rest s).nch = s.nch := rfl

@[simp] theorem popByte_npix (v : Byte) (rest : List Byte) (s : State) :
    (popByte v rest s).npix = s.npix := rfl

@[simp] theorem popByte_ch4 (v : Byte) (rest : List Byte) (s : State) :
    (popByte v rest s).ch4 = s.ch4 := rfl

@[simp] theorem popByte_count (v : Byte) (rest : List Byte) (s : State) :
    (popByte v rest s).count = s.count := rfl

@[simp] theorem popByte_err (v : Byte) (rest : List Byte) (s : State) :
    (popByte v rest s).err = s.err := rfl

@[simp] theorem popByte_errcode (v : Byte) (rest : List Byte) (s : State) :
    (popByte v rest s).errcode = s.errcode := rfl

@[simp] theorem popByte_rdata (v : Byte) (rest : List Byte) (s : State) :
    (popByte v rest s).rdata = v := rfl

@[simp] theorem popByte_inputs (v : Byte) (rest : List Byte) (s : State) :
    (popByte v rest s).inputs = s.inputs := rfl

/-! ### start -/

@[simp] theorem start_enc (s : State) :
    (start s).enc = { s.enc with prev := defaultPixel, run := 0 } := rfl

@[simp] theorem start_phase (s : State) :
    (start s).phase = .clear := rfl

@[simp] theorem start_pos (s : State) :
    (start s).pos = 0 := rfl

@[simp] theorem start_k (s : State) :
    (start s).k = 0 := rfl

@[simp] theorem start_inr (s : State) :
    (start s).inr = s.inr := rfl

@[simp] theorem start_ing (s : State) :
    (start s).ing = s.ing := rfl

@[simp] theorem start_inb (s : State) :
    (start s).inb = s.inb := rfl

@[simp] theorem start_pxL (s : State) :
    (start s).pxL = s.pxL := rfl

@[simp] theorem start_lastL (s : State) :
    (start s).lastL = s.lastL := rfl

@[simp] theorem start_obuf (s : State) :
    (start s).obuf = [] := rfl

@[simp] theorem start_fin (s : State) :
    (start s).fin = false := rfl

@[simp] theorem start_nch (s : State) :
    (start s).nch = channelsOf s.ch4 := rfl

@[simp] theorem start_npix (s : State) :
    (start s).npix = s.count := rfl

@[simp] theorem start_ch4 (s : State) :
    (start s).ch4 = s.ch4 := rfl

@[simp] theorem start_count (s : State) :
    (start s).count = s.count := rfl

@[simp] theorem start_err (s : State) :
    (start s).err = false := rfl

@[simp] theorem start_errcode (s : State) :
    (start s).errcode = 0 := rfl

@[simp] theorem start_rdata (s : State) :
    (start s).rdata = s.rdata := rfl

@[simp] theorem start_inputs (s : State) :
    (start s).inputs = s.inputs := rfl

/-! ### clearCache -/

@[simp] theorem clearCache_enc (s : State) :
    (clearCache s).enc = { s.enc with cache := clearedCache } := rfl

@[simp] theorem clearCache_phase (s : State) :
    (clearCache s).phase = if s.npix = 0 then .done else .accept := rfl

@[simp] theorem clearCache_pos (s : State) :
    (clearCache s).pos = s.pos := rfl

@[simp] theorem clearCache_k (s : State) :
    (clearCache s).k = s.k := rfl

@[simp] theorem clearCache_inr (s : State) :
    (clearCache s).inr = s.inr := rfl

@[simp] theorem clearCache_ing (s : State) :
    (clearCache s).ing = s.ing := rfl

@[simp] theorem clearCache_inb (s : State) :
    (clearCache s).inb = s.inb := rfl

@[simp] theorem clearCache_pxL (s : State) :
    (clearCache s).pxL = s.pxL := rfl

@[simp] theorem clearCache_lastL (s : State) :
    (clearCache s).lastL = s.lastL := rfl

@[simp] theorem clearCache_obuf (s : State) :
    (clearCache s).obuf = s.obuf := rfl

@[simp] theorem clearCache_fin (s : State) :
    (clearCache s).fin = s.fin := rfl

@[simp] theorem clearCache_nch (s : State) :
    (clearCache s).nch = s.nch := rfl

@[simp] theorem clearCache_npix (s : State) :
    (clearCache s).npix = s.npix := rfl

@[simp] theorem clearCache_ch4 (s : State) :
    (clearCache s).ch4 = s.ch4 := rfl

@[simp] theorem clearCache_count (s : State) :
    (clearCache s).count = s.count := rfl

@[simp] theorem clearCache_err (s : State) :
    (clearCache s).err = s.err := rfl

@[simp] theorem clearCache_errcode (s : State) :
    (clearCache s).errcode = s.errcode := rfl

@[simp] theorem clearCache_rdata (s : State) :
    (clearCache s).rdata = s.rdata := rfl

@[simp] theorem clearCache_inputs (s : State) :
    (clearCache s).inputs = s.inputs := rfl

/-! ### finishPixel -/

@[simp] theorem finishPixel_enc (e : EncoderState) (out : List Byte) (s : State) :
    (finishPixel e out s).enc = e := rfl

@[simp] theorem finishPixel_phase (e : EncoderState) (out : List Byte) (s : State) :
    (finishPixel e out s).phase = if out = [] then afterDrain s.lastL else .emit := rfl

@[simp] theorem finishPixel_pos (e : EncoderState) (out : List Byte) (s : State) :
    (finishPixel e out s).pos = s.pos + 1 := rfl

@[simp] theorem finishPixel_k (e : EncoderState) (out : List Byte) (s : State) :
    (finishPixel e out s).k = s.k := rfl

@[simp] theorem finishPixel_inr (e : EncoderState) (out : List Byte) (s : State) :
    (finishPixel e out s).inr = s.inr := rfl

@[simp] theorem finishPixel_ing (e : EncoderState) (out : List Byte) (s : State) :
    (finishPixel e out s).ing = s.ing := rfl

@[simp] theorem finishPixel_inb (e : EncoderState) (out : List Byte) (s : State) :
    (finishPixel e out s).inb = s.inb := rfl

@[simp] theorem finishPixel_pxL (e : EncoderState) (out : List Byte) (s : State) :
    (finishPixel e out s).pxL = s.pxL := rfl

@[simp] theorem finishPixel_lastL (e : EncoderState) (out : List Byte) (s : State) :
    (finishPixel e out s).lastL = s.lastL := rfl

@[simp] theorem finishPixel_obuf (e : EncoderState) (out : List Byte) (s : State) :
    (finishPixel e out s).obuf = out := rfl

@[simp] theorem finishPixel_fin (e : EncoderState) (out : List Byte) (s : State) :
    (finishPixel e out s).fin = s.lastL := rfl

@[simp] theorem finishPixel_nch (e : EncoderState) (out : List Byte) (s : State) :
    (finishPixel e out s).nch = s.nch := rfl

@[simp] theorem finishPixel_npix (e : EncoderState) (out : List Byte) (s : State) :
    (finishPixel e out s).npix = s.npix := rfl

@[simp] theorem finishPixel_ch4 (e : EncoderState) (out : List Byte) (s : State) :
    (finishPixel e out s).ch4 = s.ch4 := rfl

@[simp] theorem finishPixel_count (e : EncoderState) (out : List Byte) (s : State) :
    (finishPixel e out s).count = s.count := rfl

@[simp] theorem finishPixel_err (e : EncoderState) (out : List Byte) (s : State) :
    (finishPixel e out s).err = s.err := rfl

@[simp] theorem finishPixel_errcode (e : EncoderState) (out : List Byte) (s : State) :
    (finishPixel e out s).errcode = s.errcode := rfl

@[simp] theorem finishPixel_rdata (e : EncoderState) (out : List Byte) (s : State) :
    (finishPixel e out s).rdata = s.rdata := rfl

@[simp] theorem finishPixel_inputs (e : EncoderState) (out : List Byte) (s : State) :
    (finishPixel e out s).inputs = s.inputs := rfl

/-! ### protocolError (R331) -/

@[simp] theorem protocolError_enc (code : BitVec 2) (s : State) :
    (protocolError code s).enc = s.enc := by unfold protocolError; split <;> rfl

@[simp] theorem protocolError_phase (code : BitVec 2) (s : State) :
    (protocolError code s).phase = s.phase := by unfold protocolError; split <;> rfl

@[simp] theorem protocolError_pos (code : BitVec 2) (s : State) :
    (protocolError code s).pos = s.pos := by unfold protocolError; split <;> rfl

@[simp] theorem protocolError_k (code : BitVec 2) (s : State) :
    (protocolError code s).k = s.k := by unfold protocolError; split <;> rfl

@[simp] theorem protocolError_inr (code : BitVec 2) (s : State) :
    (protocolError code s).inr = s.inr := by unfold protocolError; split <;> rfl

@[simp] theorem protocolError_ing (code : BitVec 2) (s : State) :
    (protocolError code s).ing = s.ing := by unfold protocolError; split <;> rfl

@[simp] theorem protocolError_inb (code : BitVec 2) (s : State) :
    (protocolError code s).inb = s.inb := by unfold protocolError; split <;> rfl

@[simp] theorem protocolError_pxL (code : BitVec 2) (s : State) :
    (protocolError code s).pxL = s.pxL := by unfold protocolError; split <;> rfl

@[simp] theorem protocolError_lastL (code : BitVec 2) (s : State) :
    (protocolError code s).lastL = s.lastL := by unfold protocolError; split <;> rfl

@[simp] theorem protocolError_obuf (code : BitVec 2) (s : State) :
    (protocolError code s).obuf = s.obuf := by unfold protocolError; split <;> rfl

@[simp] theorem protocolError_fin (code : BitVec 2) (s : State) :
    (protocolError code s).fin = s.fin := by unfold protocolError; split <;> rfl

@[simp] theorem protocolError_nch (code : BitVec 2) (s : State) :
    (protocolError code s).nch = s.nch := by unfold protocolError; split <;> rfl

@[simp] theorem protocolError_npix (code : BitVec 2) (s : State) :
    (protocolError code s).npix = s.npix := by unfold protocolError; split <;> rfl

@[simp] theorem protocolError_ch4 (code : BitVec 2) (s : State) :
    (protocolError code s).ch4 = s.ch4 := by unfold protocolError; split <;> rfl

@[simp] theorem protocolError_count (code : BitVec 2) (s : State) :
    (protocolError code s).count = s.count := by unfold protocolError; split <;> rfl

@[simp] theorem protocolError_rdata (code : BitVec 2) (s : State) :
    (protocolError code s).rdata = s.rdata := by unfold protocolError; split <;> rfl

@[simp] theorem protocolError_inputs (code : BitVec 2) (s : State) :
    (protocolError code s).inputs = s.inputs := by unfold protocolError; split <;> rfl

@[simp] theorem protocolError_err (code : BitVec 2) (s : State) :
    (protocolError code s).err = true := by unfold protocolError; split <;> simp_all

@[simp] theorem protocolError_errcode (code : BitVec 2) (s : State) :
    (protocolError code s).errcode = if s.err then s.errcode else code := by
  unfold protocolError; split <;> rfl

/-! ### latchByte and acceptByte (R252) -/

@[simp] theorem latchByte_enc (v : Byte) (s : State) :
    (latchByte v s).enc = s.enc := by unfold latchByte; split <;> rfl

@[simp] theorem latchByte_phase (v : Byte) (s : State) :
    (latchByte v s).phase = s.phase := by unfold latchByte; split <;> rfl

@[simp] theorem latchByte_pos (v : Byte) (s : State) :
    (latchByte v s).pos = s.pos := by unfold latchByte; split <;> rfl

@[simp] theorem latchByte_k (v : Byte) (s : State) :
    (latchByte v s).k = s.k := by unfold latchByte; split <;> rfl

@[simp] theorem latchByte_pxL (v : Byte) (s : State) :
    (latchByte v s).pxL = s.pxL := by unfold latchByte; split <;> rfl

@[simp] theorem latchByte_lastL (v : Byte) (s : State) :
    (latchByte v s).lastL = s.lastL := by unfold latchByte; split <;> rfl

@[simp] theorem latchByte_obuf (v : Byte) (s : State) :
    (latchByte v s).obuf = s.obuf := by unfold latchByte; split <;> rfl

@[simp] theorem latchByte_fin (v : Byte) (s : State) :
    (latchByte v s).fin = s.fin := by unfold latchByte; split <;> rfl

@[simp] theorem latchByte_nch (v : Byte) (s : State) :
    (latchByte v s).nch = s.nch := by unfold latchByte; split <;> rfl

@[simp] theorem latchByte_npix (v : Byte) (s : State) :
    (latchByte v s).npix = s.npix := by unfold latchByte; split <;> rfl

@[simp] theorem latchByte_ch4 (v : Byte) (s : State) :
    (latchByte v s).ch4 = s.ch4 := by unfold latchByte; split <;> rfl

@[simp] theorem latchByte_count (v : Byte) (s : State) :
    (latchByte v s).count = s.count := by unfold latchByte; split <;> rfl

@[simp] theorem latchByte_err (v : Byte) (s : State) :
    (latchByte v s).err = s.err := by unfold latchByte; split <;> rfl

@[simp] theorem latchByte_errcode (v : Byte) (s : State) :
    (latchByte v s).errcode = s.errcode := by unfold latchByte; split <;> rfl

@[simp] theorem latchByte_rdata (v : Byte) (s : State) :
    (latchByte v s).rdata = s.rdata := by unfold latchByte; split <;> rfl

@[simp] theorem latchByte_inputs (v : Byte) (s : State) :
    (latchByte v s).inputs = s.inputs := by unfold latchByte; split <;> rfl

@[simp] theorem latchByte_inr (v : Byte) (s : State) :
    (latchByte v s).inr = if s.k = 0 then v else s.inr := by
  unfold latchByte; split <;> simp_all

@[simp] theorem latchByte_ing (v : Byte) (s : State) :
    (latchByte v s).ing = if s.k = 1 then v else s.ing := by
  unfold latchByte; split <;> simp_all

@[simp] theorem latchByte_inb (v : Byte) (s : State) :
    (latchByte v s).inb = if s.k = 2 then v else s.inb := by
  unfold latchByte; split <;> simp_all

@[simp] theorem acceptByte_enc (v : Byte) (s : State) :
    (acceptByte v s).enc = s.enc := by unfold acceptByte; split <;> simp

@[simp] theorem acceptByte_pos (v : Byte) (s : State) :
    (acceptByte v s).pos = s.pos := by unfold acceptByte; split <;> simp

@[simp] theorem acceptByte_obuf (v : Byte) (s : State) :
    (acceptByte v s).obuf = s.obuf := by unfold acceptByte; split <;> simp

@[simp] theorem acceptByte_fin (v : Byte) (s : State) :
    (acceptByte v s).fin = s.fin := by unfold acceptByte; split <;> simp

@[simp] theorem acceptByte_nch (v : Byte) (s : State) :
    (acceptByte v s).nch = s.nch := by unfold acceptByte; split <;> simp

@[simp] theorem acceptByte_npix (v : Byte) (s : State) :
    (acceptByte v s).npix = s.npix := by unfold acceptByte; split <;> simp

@[simp] theorem acceptByte_ch4 (v : Byte) (s : State) :
    (acceptByte v s).ch4 = s.ch4 := by unfold acceptByte; split <;> simp

@[simp] theorem acceptByte_count (v : Byte) (s : State) :
    (acceptByte v s).count = s.count := by unfold acceptByte; split <;> simp

@[simp] theorem acceptByte_err (v : Byte) (s : State) :
    (acceptByte v s).err = s.err := by unfold acceptByte; split <;> simp

@[simp] theorem acceptByte_errcode (v : Byte) (s : State) :
    (acceptByte v s).errcode = s.errcode := by unfold acceptByte; split <;> simp

@[simp] theorem acceptByte_rdata (v : Byte) (s : State) :
    (acceptByte v s).rdata = s.rdata := by unfold acceptByte; split <;> simp

@[simp] theorem acceptByte_inputs (v : Byte) (s : State) :
    (acceptByte v s).inputs = s.inputs := by unfold acceptByte; split <;> simp

@[simp] theorem acceptByte_inr (v : Byte) (s : State) :
    (acceptByte v s).inr = if s.k = 0 then v else s.inr := by unfold acceptByte; split <;> simp

@[simp] theorem acceptByte_ing (v : Byte) (s : State) :
    (acceptByte v s).ing = if s.k = 1 then v else s.ing := by unfold acceptByte; split <;> simp

@[simp] theorem acceptByte_inb (v : Byte) (s : State) :
    (acceptByte v s).inb = if s.k = 2 then v else s.inb := by unfold acceptByte; split <;> simp

@[simp] theorem acceptByte_k (v : Byte) (s : State) :
    (acceptByte v s).k = if s.k + 1 = channelCount s.nch then 0 else s.k + 1 := by
  unfold acceptByte; split <;> simp

@[simp] theorem acceptByte_phase (v : Byte) (s : State) :
    (acceptByte v s).phase = if s.k + 1 = channelCount s.nch then .encode else s.phase := by
  unfold acceptByte; split <;> simp

@[simp] theorem atLastPixel_latchByte (v : Byte) (s : State) :
    atLastPixel (latchByte v s) = atLastPixel s := by simp [atLastPixel]

@[simp] theorem acceptByte_lastL (v : Byte) (s : State) :
    (acceptByte v s).lastL = if s.k + 1 = channelCount s.nch then atLastPixel s else s.lastL := by
  unfold acceptByte; split <;> simp

/-! ### hardwareReset (R360) -/

@[simp] theorem hardwareReset_enc (s : State) : (hardwareReset s).enc = State.reset.enc := rfl

@[simp] theorem hardwareReset_phase (s : State) : (hardwareReset s).phase = State.reset.phase := rfl

@[simp] theorem hardwareReset_pos (s : State) : (hardwareReset s).pos = State.reset.pos := rfl

@[simp] theorem hardwareReset_k (s : State) : (hardwareReset s).k = State.reset.k := rfl

@[simp] theorem hardwareReset_inr (s : State) : (hardwareReset s).inr = State.reset.inr := rfl

@[simp] theorem hardwareReset_ing (s : State) : (hardwareReset s).ing = State.reset.ing := rfl

@[simp] theorem hardwareReset_inb (s : State) : (hardwareReset s).inb = State.reset.inb := rfl

@[simp] theorem hardwareReset_pxL (s : State) : (hardwareReset s).pxL = State.reset.pxL := rfl

@[simp] theorem hardwareReset_lastL (s : State) : (hardwareReset s).lastL = State.reset.lastL := rfl

@[simp] theorem hardwareReset_obuf (s : State) : (hardwareReset s).obuf = State.reset.obuf := rfl

@[simp] theorem hardwareReset_fin (s : State) : (hardwareReset s).fin = State.reset.fin := rfl

@[simp] theorem hardwareReset_nch (s : State) : (hardwareReset s).nch = State.reset.nch := rfl

@[simp] theorem hardwareReset_npix (s : State) : (hardwareReset s).npix = State.reset.npix := rfl

@[simp] theorem hardwareReset_ch4 (s : State) : (hardwareReset s).ch4 = State.reset.ch4 := rfl

@[simp] theorem hardwareReset_count (s : State) : (hardwareReset s).count = State.reset.count := rfl

@[simp] theorem hardwareReset_err (s : State) : (hardwareReset s).err = State.reset.err := rfl

@[simp] theorem hardwareReset_errcode (s : State) : (hardwareReset s).errcode = State.reset.errcode := rfl

@[simp] theorem hardwareReset_rdata (s : State) : (hardwareReset s).rdata = State.reset.rdata := rfl

@[simp] theorem hardwareReset_inputs (s : State) : (hardwareReset s).inputs = s.inputs := rfl

/-! ### withFetchWord -/

@[simp] theorem withFetchWord_enc (s : State) (nbits w : Nat) :
    (s.withFetchWord nbits w).enc = s.enc := rfl

@[simp] theorem withFetchWord_phase (s : State) (nbits w : Nat) :
    (s.withFetchWord nbits w).phase = s.phase := rfl

@[simp] theorem withFetchWord_pos (s : State) (nbits w : Nat) :
    (s.withFetchWord nbits w).pos = s.pos := rfl

@[simp] theorem withFetchWord_k (s : State) (nbits w : Nat) :
    (s.withFetchWord nbits w).k = s.k := rfl

@[simp] theorem withFetchWord_inr (s : State) (nbits w : Nat) :
    (s.withFetchWord nbits w).inr = s.inr := rfl

@[simp] theorem withFetchWord_ing (s : State) (nbits w : Nat) :
    (s.withFetchWord nbits w).ing = s.ing := rfl

@[simp] theorem withFetchWord_inb (s : State) (nbits w : Nat) :
    (s.withFetchWord nbits w).inb = s.inb := rfl

@[simp] theorem withFetchWord_pxL (s : State) (nbits w : Nat) :
    (s.withFetchWord nbits w).pxL = s.pxL := rfl

@[simp] theorem withFetchWord_lastL (s : State) (nbits w : Nat) :
    (s.withFetchWord nbits w).lastL = s.lastL := rfl

@[simp] theorem withFetchWord_obuf (s : State) (nbits w : Nat) :
    (s.withFetchWord nbits w).obuf = s.obuf := rfl

@[simp] theorem withFetchWord_fin (s : State) (nbits w : Nat) :
    (s.withFetchWord nbits w).fin = s.fin := rfl

@[simp] theorem withFetchWord_nch (s : State) (nbits w : Nat) :
    (s.withFetchWord nbits w).nch = s.nch := rfl

@[simp] theorem withFetchWord_npix (s : State) (nbits w : Nat) :
    (s.withFetchWord nbits w).npix = s.npix := rfl

@[simp] theorem withFetchWord_ch4 (s : State) (nbits w : Nat) :
    (s.withFetchWord nbits w).ch4 = s.ch4 := rfl

@[simp] theorem withFetchWord_count (s : State) (nbits w : Nat) :
    (s.withFetchWord nbits w).count = s.count := rfl

@[simp] theorem withFetchWord_err (s : State) (nbits w : Nat) :
    (s.withFetchWord nbits w).err = s.err := rfl

@[simp] theorem withFetchWord_errcode (s : State) (nbits w : Nat) :
    (s.withFetchWord nbits w).errcode = s.errcode := rfl

@[simp] theorem withFetchWord_rdata (s : State) (nbits w : Nat) :
    (s.withFetchWord nbits w).rdata = s.rdata := rfl

@[simp] theorem withFetchWord_inputs (s : State) (nbits w : Nat) :
    (s.withFetchWord nbits w).inputs = .chunk (tableBytes nbits w) :: s.inputs := rfl

end Sys2Proof.Machine
end

