-- ==== Sys2Proof/Laws/Ops.lean ====
section
/-! SUPPORT. For each shared operation, once, everything it can do: what a protocol error, a channel byte, a chunk, an
operation and a step can give. -/

namespace Sys2Proof.Machine

/-- R331: a protocol error changes the error record alone, and that only when no error stands. -/
theorem protocolError_spec (code : BitVec 2) (s : State) :
    protocolError code s = { s with err := true, errcode := if s.err then s.errcode else code } := by
  unfold protocolError
  split
  · rename_i h
    cases s
    simp_all
  · simp

/-- R252: a channel byte leaves everything but the latches, `k`, the latched pixel and the phase. -/
theorem acceptByte_frame (v : Byte) (s : State) :
    (acceptByte v s).enc = s.enc ∧ (acceptByte v s).pos = s.pos ∧ (acceptByte v s).obuf = s.obuf
      ∧ (acceptByte v s).fin = s.fin ∧ (acceptByte v s).nch = s.nch ∧ (acceptByte v s).npix = s.npix
      ∧ (acceptByte v s).ch4 = s.ch4 ∧ (acceptByte v s).count = s.count ∧ (acceptByte v s).err = s.err
      ∧ (acceptByte v s).errcode = s.errcode ∧ (acceptByte v s).rdata = s.rdata
      ∧ (acceptByte v s).inputs = s.inputs := by
  unfold acceptByte latchPixel latchByte
  split <;> split <;> simp

/-- A chunk operation changes nothing, or it is the pixel step (R141, R271, log entry 7). -/
theorem exec_chunk_cases (s : State) (i : Instr) (h : isChunk i = true) :
    exec i s = .next s ∨ (s.phase = .encode ∧ exec i s = exec .encodeDone s) := by
  cases i with
  | index i =>
    simp only [exec, execIndex]
    split
    · rename_i h
      obtain ⟨h1, h2, rfl⟩ := h
      simp only [atBreak, decide_eq_true_eq] at h1
      right
      simp [h1, execEncodeDone, encodePixel, ownChunk, h2, emitOwn]
    · exact .inl rfl
  | run n =>
    simp only [exec, execRun]
    split
    · exact .inl rfl
    · rename_i hp
      simp only [ne_eq, not_not] at hp
      split
      · rename_i hx
        split
        · rename_i h
          obtain ⟨rfl, h⟩ := h
          right
          simp [hp, execEncodeDone, encodePixel, hx, h]
        · exact .inl rfl
      · rename_i hx
        split
        · rename_i h
          obtain ⟨rfl, h⟩ := h
          right
          simp [hp, execEncodeDone, encodePixel, hx, flushBytes, h]
        · exact .inl rfl
  | diff vr vg vb =>
    simp only [exec, execDiff]
    split
    · rename_i h
      obtain ⟨h1, rfl, rfl, rfl, h2⟩ := h
      simp only [vrOf, vgOf, vbOf, atDelta, atBreak, Bool.and_eq_true, decide_eq_true_eq, Bool.not_eq_true'] at h1 h2 ⊢
      obtain ⟨⟨h1, h3⟩, h4⟩ := h1
      right
      simp [h1, execEncodeDone, encodePixel, ownChunk, h3, h4, h2, missChunk, emitOwn, chunkBytes]
    · exact .inl rfl
  | luma vg vgr vgb =>
    simp only [exec, execLuma]
    split
    · rename_i h
      obtain ⟨h1, rfl, rfl, rfl, h2, h5⟩ := h
      simp only [vrOf, vgOf, vbOf, atDelta, atBreak, Bool.and_eq_true, decide_eq_true_eq, Bool.not_eq_true'] at h1 h2 h5 ⊢
      obtain ⟨⟨h1, h3⟩, h4⟩ := h1
      right
      simp [h1, execEncodeDone, encodePixel, ownChunk, h3, h4, h2, h5, missChunk, emitOwn, chunkBytes]
    · exact .inl rfl
  | rgb r g b =>
    simp only [exec, execRgb]
    split
    · rename_i h
      obtain ⟨h1, rfl, rfl, rfl, h2, h5⟩ := h
      simp only [vrOf, vgOf, vbOf, atDelta, atBreak, Bool.and_eq_true, decide_eq_true_eq, Bool.not_eq_true'] at h1 h2 h5 ⊢
      obtain ⟨⟨h1, h3⟩, h4⟩ := h1
      right
      simp [h1, execEncodeDone, encodePixel, ownChunk, h3, h4, h2, h5, missChunk, emitOwn, chunkBytes]
    · exact .inl rfl
  | rgba r g b a =>
    simp only [exec, execRgba]
    split
    · rename_i h
      obtain ⟨h1, h3, h4, rfl, rfl, rfl, rfl⟩ := h
      simp only [atBreak, decide_eq_true_eq] at h1
      right
      simp [h1, execEncodeDone, encodePixel, ownChunk, h3, h4, missChunk, emitOwn, chunkBytes]
    · exact .inl rfl
  | _ => simp [isChunk] at h

/-- ENCODE-done in ENCODE is the end of a pixel step with what EncodePixel gives; elsewhere it changes nothing (R271). -/
theorem exec_encodeDone_cases (s : State) :
    (s.phase = .encode ∧ exec .encodeDone s
        = .next (finishPixel (encodePixel s.enc s.pxL s.lastL).1 (encodePixel s.enc s.pxL s.lastL).2 s))
      ∨ (s.phase ≠ .encode ∧ exec .encodeDone s = .next s) := by
  by_cases h : s.phase = .encode <;> simp [exec, execEncodeDone, h]

/-- What any operation that goes on can have done: one of the named operations on the state. -/
theorem exec_next_cases (s t : State) (i : Instr) (h : exec i s = .next t) :
    t = s
      ∨ (∃ v, i = .wrDataIn v ∧ s.phase = .accept ∧ t = acceptByte v s)
      ∨ (∃ v, i = .wrDataIn v ∧ s.phase ≠ .accept ∧ t = protocolError codeOverrun s)
      ∨ (∃ v rest, i = .rdDataOut ∧ s.phase = .emit ∧ s.obuf = v :: rest ∧ t = popByte v rest s)
      ∨ (i = .rdDataOut ∧ s.phase ≠ .emit ∧ t = returnByte 0 (protocolError codeUnderrun s))
      ∨ (∃ v, i ≠ .rdDataOut ∧ isHostAccess i = true ∧ isStart i = false ∧ t = returnByte v s)
      ∨ (∃ v, i = .wrCtrl v ∧ v.getLsbD 0 = true ∧ t = start { s with ch4 := v.getLsbD 1 })
      ∨ (∃ v, i = .wrCtrl v ∧ v.getLsbD 0 = false ∧ t = { s with ch4 := v.getLsbD 1 })
      ∨ (∃ j v, i = .wrCount j v ∧ t = { s with count := withCountByte s.count j v })
      ∨ (i = .clearDone ∧ s.phase = .clear ∧ t = clearCache s)
      ∨ ((i = .encodeDone ∨ isChunk i = true) ∧ s.phase = .encode
          ∧ t = finishPixel (encodePixel s.enc s.pxL s.lastL).1 (encodePixel s.enc s.pxL s.lastL).2 s) := by
  have hchunk : isChunk i = true → t = s ∨ (s.phase = .encode
      ∧ t = finishPixel (encodePixel s.enc s.pxL s.lastL).1 (encodePixel s.enc s.pxL s.lastL).2 s) := by
    intro hc
    rcases exec_chunk_cases s i hc with h' | ⟨hp, h'⟩
    · rw [h'] at h
      injection h with h
      exact .inl h.symm
    · rw [h'] at h
      simp only [exec, execEncodeDone, hp, if_true] at h
      injection h with h
      exact .inr ⟨hp, h.symm⟩
  cases i with
  | wrDataIn v =>
    simp only [exec, execWrDataIn] at h
    split at h <;> (injection h with h; subst h; simp_all)
  | rdDataOut =>
    simp only [exec, execRdDataOut] at h
    split at h
    · rename_i hp
      split at h
      · cases h
      · rename_i v rest ho
        injection h with h
        exact .inr (.inr (.inr (.inl ⟨v, rest, rfl, hp, ho, h.symm⟩)))
    · rename_i hp
      injection h with h
      exact .inr (.inr (.inr (.inr (.inl ⟨rfl, hp, h.symm⟩))))
  | wrCtrl v =>
    simp only [exec, execWrCtrl] at h
    split at h <;> (injection h with h; subst h; simp_all)
  | wrCount j v =>
    injection h with h
    subst h
    exact .inr (.inr (.inr (.inr (.inr (.inr (.inr (.inr (.inl ⟨j, v, rfl, rfl⟩))))))))
  | clearDone =>
    simp only [exec, execClearDone] at h
    split at h <;> (injection h with h; subst h; simp_all)
  | encodeDone =>
    simp only [exec, execEncodeDone] at h
    split at h <;> (injection h with h; subst h; simp_all)
  | rdStatus =>
    injection h with h
    exact .inr (.inr (.inr (.inr (.inr (.inl ⟨_, by simp, rfl, rfl, h.symm⟩)))))
  | rdCtrl =>
    injection h with h
    exact .inr (.inr (.inr (.inr (.inr (.inl ⟨_, by simp, rfl, rfl, h.symm⟩)))))
  | rdCount j =>
    injection h with h
    exact .inr (.inr (.inr (.inr (.inr (.inl ⟨_, by simp, rfl, rfl, h.symm⟩)))))
  | rdDataIn =>
    injection h with h
    exact .inr (.inr (.inr (.inr (.inr (.inl ⟨_, by simp, rfl, rfl, h.symm⟩)))))
  | wrDataOut v =>
    injection h with h
    exact .inl h.symm
  | wrStatus v =>
    injection h with h
    exact .inl h.symm
  | _ =>
    rcases hchunk rfl with h | ⟨hp, h⟩
    · exact .inl h
    · exact .inr (.inr (.inr (.inr (.inr (.inr (.inr (.inr (.inr (.inr ⟨.inr rfl, hp, h⟩)))))))))

/-- What any step that goes on can have done: an operation, a wait, or hardware reset (R250, R272, R360). -/
theorem step_next_cases (s t : State) (h : step s = .next t) :
    ∃ inputs, (∃ i, exec i { s with inputs := inputs } = .next t)
      ∨ t = { s with inputs := inputs } ∨ t = { State.reset with inputs := inputs } := by
  have key : ∀ (e : Event) (s1 : State), (match fetchEvent e s1 with
      | .run i s2 => exec i s2
      | .idle s2 => .next s2
      | .refuse r => .refused r) = Host.Outcome.next t →
      (∃ i, exec i s1 = .next t) ∨ t = s1 ∨ t = hardwareReset s1 := by
    intro e s1 h
    unfold fetchEvent at h
    split at h <;> rename_i hf
    · split at hf <;> simp at hf
      obtain ⟨rfl, rfl⟩ := hf
      exact .inl ⟨_, h⟩
    · injection h with h
      subst h
      split at hf <;> simp at hf
      · exact .inr (.inl hf.symm)
      · exact .inr (.inr hf.symm)
    · cases h
  unfold step fetch at h
  split at h <;> rename_i hf
  all_goals
    cases hin : s.inputs with
    | nil =>
      rw [hin] at hf
      refine ⟨[], ?_⟩
      have hs : { s with inputs := [] } = s := by cases s; simp_all
      rw [hs]
      have := key .internal s (by simp only at hf; rw [hf]; exact h)
      rcases this with h | h | h
      · exact .inl h
      · exact .inr (.inl h)
      · exact .inr (.inr (by rw [h, hardwareReset, hin]))
    | cons e rest =>
      rw [hin] at hf
      refine ⟨rest, ?_⟩
      exact key e { s with inputs := rest } (by simp only at hf; rw [hf]; exact h)

end Sys2Proof.Machine
end

