-- ==== Sys2Proof/Laws/Host.lean ====
section
/-! SUPPORT. What the host operations of R114 do, one access at a time, and what the framing's parts give. -/

namespace Sys2Proof.Machine

/-- An event that decodes to an operation performs it, and the events to come stay. -/
theorem perform_eq (e : Event) (i : Instr) (s t : State) (hd : decode s.phase e = .ok i)
    (h : exec i s = .next t) : perform e s = some t := by
  unfold perform
  simp [step, fetch, fetchEvent, hd, h]

/-- A read of STATUS (R257). -/
theorem regRead_status (s : State) : regRead 2 s = some (statusByte s, { s with rdata := statusByte s }) := by
  unfold regRead
  rw [perform_eq (readEvent 2) .rdStatus s (returnByte (statusByte s) s) rfl rfl]
  rfl

/-- A write of DATA_IN (R252, R253). -/
theorem regWrite_dataIn (v : Byte) (s t : State) (h : exec (.wrDataIn v) s = .next t) :
    regWrite 0 v s = some t :=
  perform_eq _ (.wrDataIn v) _ _ rfl h

/-- A read of DATA_OUT (R254, R255). -/
theorem regRead_dataOut (s t : State) (h : exec .rdDataOut s = .next t) : regRead 1 s = some (t.rdata, t) := by
  unfold regRead
  rw [perform_eq (readEvent 1) .rdDataOut s t rfl h]
  rfl

/-- A write of a COUNT byte (R260). -/
theorem regWrite_count (j : Fin 4) (v : Byte) (s : State) :
    regWrite (4 + j.val) v s = some { s with count := withCountByte s.count j v } := by
  refine perform_eq _ (.wrCount j v) _ _ ?_ rfl
  rw [decode_writeEvent _ _ _ (by omega), decodeWrite_count]

/-- One round of DRAIN (R114). -/
theorem drain_succ (fuel : Nat) (s : State) : drain (fuel + 1) s =
    if (statusByte s).getLsbD 1 then
      match regRead 1 { s with rdata := statusByte s } with
      | none => none
      | some (b, u) => (drain fuel u).map fun r => (b :: r.1, r.2)
    else if (statusByte s).getLsbD 0 || (statusByte s).getLsbD 2 then some ([], { s with rdata := statusByte s })
    else (perform .internal { s with rdata := statusByte s }).bind (drain fuel) := by
  rw [drain, regRead_status] <;> rfl

/-- STATUS without an error, phase by phase (R45). -/
theorem statusByte_no_error (s : State) (h : s.err = false) (hc : s.errcode = 0) :
    statusByte s = (match s.phase with
      | .idle => 0x00
      | .clear => 0x40
      | .accept => 0x01
      | .encode => 0x40
      | .emit => 0x02
      | .done => 0x04) := by
  unfold statusByte
  rw [h, hc]
  cases s.phase <;> decide

/-- SETCOUNT (R114) stores the whole number. -/
theorem setCount_eq (n : Word32) (s : State) : setCount n s = some { s with count := n } := by
  unfold setCount
  have h0 := regWrite_count 0 (countByte n 0)
  have h1 := regWrite_count 1 (countByte n 1)
  have h2 := regWrite_count 2 (countByte n 2)
  have h3 := regWrite_count 3 (countByte n 3)
  simp only [Fin.val_zero, Fin.val_one, Fin.val_two, show (3 : Fin 4).val = 3 from rfl, Nat.add_zero,
    show 4 + 1 = 5 from rfl, show 4 + 2 = 6 from rfl, show 4 + 3 = 7 from rfl] at h0 h1 h2 h3
  rw [h0, Option.bind_some, h1, Option.bind_some, h2, Option.bind_some, h3]
  simp only
  congr 2
  apply BitVec.eq_of_getLsbD_eq
  intro i hi
  simp only [withCountByte, countByte]
  interval_cases i <;> simp

/-- R300, R303: what the check before an encode answers. -/
theorem checkRequest_cases (maxPixels : Config.MaxPixels) (allocated : Bool) (d : Descriptor) :
    (validDescriptor maxPixels d = false ∧ checkRequest maxPixels allocated d = .error .invalidDescriptor)
      ∨ (validDescriptor maxPixels d = true ∧ allocated = false
          ∧ checkRequest maxPixels allocated d = .error .allocationFailure)
      ∨ (validDescriptor maxPixels d = true ∧ allocated = true ∧ checkRequest maxPixels allocated d = .ok ()) := by
  unfold checkRequest
  cases validDescriptor maxPixels d <;> cases allocated <;> simp

/-- R309: the number reported is the number of bytes. -/
theorem frameStream_length (d : Descriptor) (chunks : List Byte) :
    (frameStream d chunks).2 = (frameStream d chunks).1.length := by
  simp [frameStream, header, Config.magic, Config.headerSize, Config.endMarkerSize, bigEndian4, endMarker]
  omega

/-- R307: a buffer of whole pixels is so many pixels, with three channels each of alpha 255, and their channel bytes in order
are the buffer. -/
theorem pixelsOf_spec (n : Channels) (m : Nat) : ∀ buffer : List Byte, buffer.length = m * channelCount n →
    (pixelsOf n buffer).length = m ∧ (n = .three → ∀ p ∈ pixelsOf n buffer, p.a = 255)
      ∧ (pixelsOf n buffer).flatMap (channelBytes n) = buffer := by
  induction m with
  | zero =>
    intro buffer h
    simp at h
    subst h
    simp [pixelsOf]
  | succ m ih =>
    intro buffer h
    match n, buffer, h with
    | .three, r :: g :: b :: rest, h =>
      have hr := ih rest (by simp [channelCount] at h ⊢; omega)
      simp only [pixelsOf]
      refine ⟨by simp [hr.1], fun _ p hp => ?_, by simp [channelBytes, hr.2.2]⟩
      rcases List.mem_cons.mp hp with rfl | hp
      · rfl
      · exact hr.2.1 rfl p hp
    | .four, r :: g :: b :: a :: rest, h =>
      have hr := ih rest (by simp [channelCount] at h ⊢; omega)
      simp only [pixelsOf]
      exact ⟨by simp [hr.1], by simp, by simp [channelBytes, hr.2.2]⟩
    | .three, [], h => simp [channelCount] at h
    | .three, [_], h => simp [channelCount] at h; omega
    | .three, [_, _], h => simp [channelCount] at h; omega
    | .four, [], h => simp [channelCount] at h
    | .four, [_], h => simp [channelCount] at h; omega
    | .four, [_, _], h => simp [channelCount] at h; omega
    | .four, [_, _, _], h => simp [channelCount] at h; omega

end Sys2Proof.Machine
end

