-- ==== Sys2Proof/Laws/PerInstr.lean ====
section
/-! SUPPORT. Statements made for every operation, one lemma a constructor. EncodingLength: the first byte of a well-formed
chunk says how many bytes it has (R109); an operation that is no chunk has no bytes. -/

namespace Sys2Proof.Laws.EncodingLength

/-- The chunk bytes of an operation are as many as its first byte says (R109). -/
def Statement (i : Instr) : Prop :=
  i.wf = true → ∀ first rest, chunkBytes i = first :: rest → chunkLength first = (chunkBytes i).length

/-- A first byte that is no full-byte tag gives two bytes if its tag bits are 10, else one. -/
theorem chunkLength_of_bits (b : Byte) (h1 : b ≠ Config.tagRgba) (h2 : b ≠ Config.tagRgb) :
    chunkLength b = if bits b 7 6 = 2 then 2 else 1 := by
  simp only [chunkLength, h1, h2, if_false]

theorem index (i : Slot) : Statement (.index i) := by
  intro _ first rest h
  obtain ⟨h1, h2, h3, -⟩ := indexByte_fields i
  injection h with h
  subst h
  rw [chunkLength_of_bits _ h1 h2, h3]
  rfl

theorem diff (vr vg vb : Int) : Statement (.diff vr vg vb) := by
  intro hw first rest h
  simp only [Instr.wf, Bool.and_eq_true, inDiffRange_iff] at hw
  obtain ⟨x, rfl⟩ := stored_of_bounds vr 2 4 (by omega) (by omega)
  obtain ⟨y, rfl⟩ := stored_of_bounds vg 2 4 (by omega) (by omega)
  obtain ⟨z, rfl⟩ := stored_of_bounds vb 2 4 (by omega) (by omega)
  obtain ⟨h1, h2, h3, -⟩ := diffByte_fields x y z
  injection h with h
  subst h
  rw [chunkLength_of_bits _ h1 h2, h3]
  rfl

theorem luma (vg vgr vgb : Int) : Statement (.luma vg vgr vgb) := by
  intro hw first rest h
  simp only [Instr.wf, Bool.and_eq_true, inLumaGreenRange_iff] at hw
  obtain ⟨x, rfl⟩ := stored_of_bounds vg 32 64 (by omega) (by omega)
  obtain ⟨h1, h2, h3, -⟩ := lumaByte0_fields x
  rw [chunkBytes, lumaBytes_eq] at h
  injection h with h
  subst h
  rw [chunkLength_of_bits _ h1 h2, h3]
  rfl

theorem run (n : Nat) : Statement (.run n) := by
  intro hw first rest h
  simp only [Instr.wf, inRunRange_iff] at hw
  obtain ⟨x, rfl⟩ : ∃ x : Fin 62, n = x.val + 1 := ⟨⟨n - 1, by omega⟩, by simp; omega⟩
  obtain ⟨h1, h2, h3, -⟩ := runByte_fields x
  injection h with h
  subst h
  rw [chunkLength_of_bits _ h1 h2, h3]
  rfl

theorem rgb (r g b : Byte) : Statement (.rgb r g b) := by
  intro _ first rest h
  injection h with h
  subst h
  rfl

theorem rgba (r g b a : Byte) : Statement (.rgba r g b a) := by
  intro _ first rest h
  injection h with h
  subst h
  rfl

theorem wrDataIn (v : Byte) : Statement (.wrDataIn v) := by
  intro _ first rest h
  cases h

theorem rdDataOut : Statement (.rdDataOut) := by
  intro _ first rest h
  cases h

theorem rdStatus : Statement (.rdStatus) := by
  intro _ first rest h
  cases h

theorem rdCtrl : Statement (.rdCtrl) := by
  intro _ first rest h
  cases h

theorem wrCtrl (v : Byte) : Statement (.wrCtrl v) := by
  intro _ first rest h
  cases h

theorem rdCount (j : Fin 4) : Statement (.rdCount j) := by
  intro _ first rest h
  cases h

theorem wrCount (j : Fin 4) (v : Byte) : Statement (.wrCount j v) := by
  intro _ first rest h
  cases h

theorem rdDataIn : Statement (.rdDataIn) := by
  intro _ first rest h
  cases h

theorem wrDataOut (v : Byte) : Statement (.wrDataOut v) := by
  intro _ first rest h
  cases h

theorem wrStatus (v : Byte) : Statement (.wrStatus v) := by
  intro _ first rest h
  cases h

theorem clearDone : Statement (.clearDone) := by
  intro _ first rest h
  cases h

theorem encodeDone : Statement (.encodeDone) := by
  intro _ first rest h
  cases h

end Sys2Proof.Laws.EncodingLength
end

