-- ==== Sys2Proof/Tests/Slice0.lean ====
section
/-! SUPPORT. The model's own tests: operands WellFormed refuses, words written out from 30_encoding.md, one step of each
operation with results from 95_test_vectors.md (the vector is named at each), and a witness for every statement with
hypotheses. -/

namespace Sys2Proof.Tests

open Sys2Proof.Machine

/-- The state an outcome goes on to. -/
def nextOf (o : Host.Outcome State Fault Refusal) : Option State :=
  match o with
  | .next t => some t
  | .fault _ => none
  | .refused _ => none

/-- A state in a phase, of an encode of four pixels of four channels. -/
def inPhase (p : Phase) : State := { State.reset with phase := p, npix := 4 }

/-- A pixel step about to be taken on a cleared cache. -/
def inPixel (prev px : Pixel) (run : Nat) (last : Bool) : State :=
  { inPhase .encode with
    enc := { prev := prev, run := run, cache := clearedCache }, pxL := px, lastL := last
    pos := if last then 3 else 0 }

/-- The pixel X of 95_test_vectors.md section 2.2. -/
def pixelX : Pixel := { r := 10, g := 20, b := 30, a := 255 }

/-- The state of V-IDX-3 before its fourth pixel, as far as that step reads it. -/
def beforeIndex : State :=
  { inPixel { r := 10, g := 20, b := 30, a := 128 } pixelX 0 false with
    enc := { prev := { r := 10, g := 20, b := 30, a := 128 }, run := 0, cache := clearedCache.set 9 pixelX } }

/-! ### WellFormed -/

theorem test_wf_diff : (Instr.diff (-3) 0 0).wf = false ∧ (Instr.diff 0 2 0).wf = false
    ∧ (Instr.diff 0 0 (-3)).wf = false ∧ (Instr.diff (-2) 1 (-2)).wf = true := by decide

theorem test_wf_luma_green : (Instr.luma (-33) 0 0).wf = false ∧ (Instr.luma 32 0 0).wf = false
    ∧ (Instr.luma (-32) 0 0).wf = true := by decide

theorem test_wf_luma_others : (Instr.luma 0 (-9) 0).wf = false ∧ (Instr.luma 0 8 0).wf = false
    ∧ (Instr.luma 0 0 (-9)).wf = false ∧ (Instr.luma 0 0 8).wf = false ∧ (Instr.luma 0 7 (-8)).wf = true := by decide

theorem test_wf_run : (Instr.run 0).wf = false ∧ (Instr.run 63).wf = false ∧ (Instr.run 62).wf = true := by decide

/-! ### Words written out from R102 to R107 and from the register table R42 -/

theorem test_word_index : decodeOneChunk [0b00#2 ++ 0b001001#6] = .ok (.index 9) := by decide

theorem test_word_diff : decodeOneChunk [0b01#2 ++ 0b11#2 ++ 0b10#2 ++ 0b01#2] = .ok (.diff 1 0 (-1)) := by decide

theorem test_word_luma :
    decodeOneChunk [0b10#2 ++ 0b100010#6, 0b1000#4 ++ 0b0111#4] = .ok (.luma 2 0 (-1)) := by decide

theorem test_word_run : decodeOneChunk [0b11#2 ++ 0b111101#6] = .ok (.run 62) := by decide

theorem test_word_rgb : decodeOneChunk [0b11111110, 10, 20, 30] = .ok (.rgb 10 20 30) := by decide

theorem test_word_rgba : decodeOneChunk [0b11111111, 5, 6, 7, 8] = .ok (.rgba 5 6 7 8) := by decide

theorem test_word_short : decodeOneChunk [0x80] = .error .truncatedChunk ∧ decodeOneChunk [] = .error .emptyChunk
    ∧ decodeOneChunk [0x00, 0x00] = .error .trailingBytes := by decide

theorem test_registers_0_to_3 :
    decode .idle (writeEvent 0 7) = .ok (.wrDataIn 7) ∧ decode .idle (readEvent 0) = .ok .rdDataIn
    ∧ decode .idle (readEvent 1) = .ok .rdDataOut ∧ decode .idle (writeEvent 1 7) = .ok (.wrDataOut 7)
    ∧ decode .idle (readEvent 2) = .ok .rdStatus ∧ decode .idle (writeEvent 2 7) = .ok (.wrStatus 7)
    ∧ decode .idle (readEvent 3) = .ok .rdCtrl ∧ decode .idle (writeEvent 3 7) = .ok (.wrCtrl 7) := by decide

theorem test_registers_4_to_7 : decode .idle (readEvent 4) = .ok (.rdCount 0) ∧ decode .idle (readEvent 7) = .ok (.rdCount 3)
    ∧ decode .idle (writeEvent 5 7) = .ok (.wrCount 1 7) ∧ decode .idle (writeEvent 6 7) = .ok (.wrCount 2 7) := by decide

theorem test_internal_steps : decode .clear .internal = .ok .clearDone ∧ decode .encode .internal = .ok .encodeDone
    ∧ decode .emit .internal = .error .noStepEnabled := by decide

/-- The first byte of a table word is its low byte. -/
theorem test_table_words : decodeTableWord 8 0xC2 = some (.run 3) ∧ decodeTableWord 16 0x87A2 = some (.luma 2 0 (-1))
    ∧ decodeTableWord 8 0xFE = some (.rgb 0 0 0) ∧ decodeTableWord 40 0x07050505FF = some (.rgba 5 5 5 7) := by decide

/-- A table word runs as the next step (here as nothing: the block is in IDLE). -/
theorem test_withFetchWord :
    (nextOf (step (State.reset.withFetchWord 16 0x87A2))).map (·.inputs) = some [] := by decide

/-! ### The hash, section 2.1 of the vectors -/

/-- V-H-1, V-H-2, V-H-3, V-H-5, V-H-7, V-H-12. -/
theorem test_hash : pixelHash { r := 0, g := 0, b := 0, a := 0 } = 0
    ∧ pixelHash { r := 0, g := 0, b := 0, a := 255 } = 53
    ∧ pixelHash { r := 255, g := 255, b := 255, a := 255 } = 38
    ∧ pixelHash { r := 10, g := 84, b := 30, a := 255 } = 9
    ∧ pixelHash { r := 1, g := 2, b := 3, a := 4 } = 14
    ∧ pixelHash { r := 5, g := 5, b := 5, a := 7 } = 24 := by decide

/-! ### Chunks, one pixel step each -/

/-- V-IDX-1. -/
theorem test_index_zero_pixel :
    (nextOf (exec (.index 0) (inPixel defaultPixel zeroPixel 0 false))).map (·.obuf) = some [0x00] := by decide

/-- V-IDX-3, fourth pixel: INDEX 9, and `prev` is that pixel. -/
theorem test_index_moves_prev :
    (nextOf (exec (.index 9) beforeIndex)).map (fun t => (t.obuf, t.enc.prev)) = some ([0x09], pixelX) := by decide

/-- V-DIFF-1. -/
theorem test_diff_stores :
    (nextOf (exec (.diff 1 0 (-1)) (inPixel defaultPixel { r := 1, g := 0, b := 255, a := 255 } 0 false))).map
      (fun t => (t.obuf, t.enc.cache[(49 : Slot)])) = some ([0x79], { r := 1, g := 0, b := 255, a := 255 }) := by decide

/-- V-DIFF-7: 0 - 255 wraps to 1. -/
theorem test_diff_wraps :
    (nextOf (exec (.diff 1 0 0) (inPixel { r := 255, g := 0, b := 0, a := 255 } defaultPixel 0 false))).map (·.obuf)
      = some [0x7A] := by decide

/-- V-LUMA-15. -/
theorem test_luma_nibbles :
    (nextOf (exec (.luma 2 0 (-1)) (inPixel pixelX { r := 12, g := 22, b := 31, a := 255 } 0 false))).map
      (fun t => (t.obuf, t.enc.cache[(32 : Slot)])) = some ([0xA2, 0x87], { r := 12, g := 22, b := 31, a := 255 }) := by decide

/-- V-LUMA-10: the smallest bytes. -/
theorem test_luma_smallest :
    (nextOf (exec (.luma (-32) (-8) (-8)) (inPixel defaultPixel { r := 216, g := 224, b := 216, a := 255 } 0 false))).map
      (·.obuf) = some [0x80, 0x00] := by decide

/-- V-RUN-4: the cap. -/
theorem test_run_cap :
    (nextOf (exec (.run 62) (inPixel pixelX pixelX 61 false))).map (fun t => (t.obuf, t.enc.run)) = some ([0xFD], 0) := by
  decide

/-- V-RUN-6: RUN 5 before the DIFF of the pixel that breaks the run. -/
theorem test_run_break :
    (nextOf (exec (.run 5) (inPixel pixelX { r := 11, g := 20, b := 30, a := 255 } 5 false))).map
      (fun t => (t.obuf, t.enc.cache[(12 : Slot)])) = some ([0xC4, 0x7A], { r := 11, g := 20, b := 30, a := 255 }) := by
  decide

/-- V-RGB-9: green fits, red less green does not. -/
theorem test_rgb_stores :
    (nextOf (exec (.rgb 0 224 0) (inPixel defaultPixel { r := 0, g := 224, b := 0, a := 255 } 0 false))).map
      (fun t => (t.obuf, t.enc.cache[(21 : Slot)]))
      = some ([0xFE, 0x00, 0xE0, 0x00], { r := 0, g := 224, b := 0, a := 255 }) := by decide

/-- V-RGB-12: five bytes with the flush. -/
theorem test_rgb_after_run :
    (nextOf (exec (.rgb 100 5 5) (inPixel { r := 5, g := 5, b := 5, a := 255 } { r := 100, g := 5, b := 5, a := 255 } 2 false))).map
      (·.obuf) = some [0xC1, 0xFE, 0x64, 0x05, 0x05] := by decide

/-- V-RGBA-3: slot 0 holds another pixel of the same hash. -/
theorem test_rgba_collision :
    (nextOf (exec (.rgba 0 0 0 128) (inPixel defaultPixel { r := 0, g := 0, b := 0, a := 128 } 0 false))).map
      (fun t => (t.obuf, t.enc.cache[(0 : Slot)]))
      = some ([0xFF, 0x00, 0x00, 0x00, 0x80], { r := 0, g := 0, b := 0, a := 128 }) := by decide

/-- V-SEL-4: six bytes in one step. -/
theorem test_rgba_six_bytes :
    (nextOf (exec (.rgba 5 5 5 7) (inPixel { r := 5, g := 5, b := 5, a := 255 } { r := 5, g := 5, b := 5, a := 7 } 2 false))).map
      (fun t => (t.obuf, t.phase)) = some ([0xC1, 0xFF, 0x05, 0x05, 0x05, 0x07], .emit) := by decide

/-! ### Internal steps -/

/-- V-RUN-2: nothing goes out, the counter is 1. -/
theorem test_encodeDone_counts :
    (nextOf (exec .encodeDone (inPixel defaultPixel defaultPixel 0 false))).map
      (fun t => (t.obuf, t.enc.run, t.phase, t.pos)) = some ([], 1, .accept, 1) := by decide

/-- V-RUN-7: the last pixel flushes. -/
theorem test_encodeDone_last :
    (nextOf (exec .encodeDone (inPixel pixelX pixelX 0 true))).map
      (fun t => (t.obuf, t.enc.run, t.fin)) = some ([0xC0], 0, true) := by decide

/-- V-HI-12: no pixels, DONE at once. -/
theorem test_clearDone_empty :
    (nextOf (exec .clearDone { inPhase .clear with npix := 0 })).map statusByte = some 0x04 := by decide

/-- R270: a slot with an old pixel is cleared. -/
theorem test_clearDone_clears :
    (nextOf (exec .clearDone { inPhase .clear with enc := beforeIndex.enc })).map
      (fun t => (t.enc.cache[(9 : Slot)], t.phase)) = some (zeroPixel, .accept) := by decide

/-! ### Register accesses -/

/-- V-HI-9: the fourth byte completes the pixel. -/
theorem test_wrDataIn_completes :
    (nextOf (exec (.wrDataIn 4) { inPhase .accept with k := 3, inr := 1, ing := 2, inb := 3 })).map
      (fun t => (statusByte t, t.pxL)) = some (0x40, { r := 1, g := 2, b := 3, a := 4 }) := by decide

/-- V-HI-11: a write in DONE is OVERRUN. -/
theorem test_wrDataIn_in_done :
    (nextOf (exec (.wrDataIn 5) (inPhase .done))).map statusByte = some 0x1C := by decide

/-- V-HI-10: the last byte of the last pixel. -/
theorem test_rdDataOut_last :
    (nextOf (exec .rdDataOut { inPhase .emit with obuf := [0x00], fin := true })).map (fun t => (t.rdata, statusByte t))
      = some (0x00, 0x04) := by decide

/-- V-HI-3: a read after reset is UNDERRUN. -/
theorem test_rdDataOut_after_reset :
    (nextOf (exec .rdDataOut State.reset)).map (fun t => (t.rdata, statusByte t)) = some (0x00, 0x28) := by decide

/-- V-HI-5: ACCEPT with ERR and code 1. -/
theorem test_rdStatus :
    (nextOf (exec .rdStatus { inPhase .accept with err := true, errcode := 1 })).map (·.rdata) = some 0x19 := by decide

/-- V-HI-1. -/
theorem test_rdCtrl : (nextOf (exec .rdCtrl State.reset)).map (·.rdata) = some 0x02 := by decide

/-- V-HI-14: CH4 without START. -/
theorem test_wrCtrl_no_start :
    (nextOf (exec (.wrCtrl 0x00) (inPhase .accept))).map (fun t => (t.ch4, t.phase)) = some (false, .accept) := by decide

/-- V-HI-15: START in EMIT discards the output. -/
theorem test_wrCtrl_start_in_emit :
    (nextOf (exec (.wrCtrl 0x03) { inPhase .emit with obuf := [0xC1, 0xFF, 0x05, 0x05, 0x05, 0x07], count := 9 })).map
      (fun t => (t.obuf, t.phase, t.err, t.npix)) = some ([], .clear, false, 9) := by decide

/-- V-HI-13, a read: COUNT2. -/
theorem test_rdCount :
    (nextOf (exec (.rdCount 2) { State.reset with count := 0x12345678 })).map (·.rdata) = some 0x34 := by decide

/-- V-HI-13, the write that completes COUNT. -/
theorem test_wrCount :
    (nextOf (exec (.wrCount 3 0x12) { State.reset with count := 0xFF345678 })).map (·.count) = some 0x12345678 := by decide

/-- V-HI-18. -/
theorem test_rdDataIn : (nextOf (exec .rdDataIn (inPhase .emit))).map (fun t => (t.rdata, t.err)) = some (0x00, false) := by
  decide

/-- V-HI-18. -/
theorem test_wrDataOut : nextOf (exec (.wrDataOut 0x5A) (inPhase .emit)) = some (inPhase .emit) := by decide

/-- V-HI-18. -/
theorem test_wrStatus : nextOf (exec (.wrStatus 0x5A) (inPhase .accept)) = some (inPhase .accept) := by decide

/-! ### Framing, host side -/

/-- V-FR-3. -/
theorem test_header : header { width := 300, height := 2, channels := 4, colorspace := 1 }
    = [0x71, 0x6F, 0x69, 0x66, 0x00, 0x00, 0x01, 0x2C, 0x00, 0x00, 0x00, 0x02, 0x04, 0x01] := by decide

/-- A MAX_PIXELS of ten. -/
def tenPixels : Config.MaxPixels := ⟨10, by decide⟩

/-- L-7: each condition alone. -/
theorem test_descriptors :
    validDescriptor tenPixels { width := 0, height := 2, channels := 3, colorspace := 0 } = false
    ∧ validDescriptor tenPixels { width := 2, height := 0, channels := 3, colorspace := 0 } = false
    ∧ validDescriptor tenPixels { width := 2, height := 2, channels := 2, colorspace := 0 } = false
    ∧ validDescriptor tenPixels { width := 2, height := 2, channels := 5, colorspace := 0 } = false
    ∧ validDescriptor tenPixels { width := 2, height := 2, channels := 3, colorspace := 2 } = false
    ∧ validDescriptor tenPixels { width := 1, height := 11, channels := 3, colorspace := 0 } = false
    ∧ validDescriptor tenPixels { width := 1, height := 10, channels := 3, colorspace := 0 } = true := by decide

/-! ### Witnesses: states and operands that meet the hypotheses of each statement, clause by clause -/

theorem witness_StepRunsDecodedOperation :
    { State.reset with inputs := [readEvent 7] }.inputs = readEvent 7 :: []
    ∧ decode State.reset.phase (readEvent 7) = .ok (.rdCount 3)
    ∧ ((inPhase .clear).inputs = [] ∧ (inPhase .clear).phase = .clear)
    ∧ ((inPhase .encode).inputs = [] ∧ (inPhase .encode).phase = .encode) := by decide

theorem witness_BlockWaitsForTheHost :
    ((inPhase .idle).phase = .idle ∧ (inPhase .idle).inputs = [])
    ∧ ((inPhase .done).phase = .done ∧ { inPhase .done with inputs := [.internal] }.inputs = .internal :: []) := by decide

/-- An access of two bytes, one at offset 8, one both read and write. -/
theorem witness_UndefinedAccessesAreRefused :
    ({ offset := 0, width := 2, dir := .read, data := 0 } : Access).width ≠ 1
    ∧ 8 ≤ ({ offset := 8, width := 1, dir := .read, data := 0 } : Access).offset
    ∧ ({ offset := 7, width := 1, dir := .readWrite, data := 0 } : Access).dir = .readWrite := by decide

theorem witness_DecodeOfEncodeIsIdentity :
    ((Instr.luma (-32) 7 (-8)).wf = true ∧ matchedIn (.luma (-32) 7 (-8)) .idle = true)
    ∧ (Instr.clearDone.wf = true ∧ matchedIn .clearDone .clear = true)
    ∧ (Instr.encodeDone.wf = true ∧ matchedIn .encodeDone .encode = true)
    ∧ ((Instr.wrCount 3 255).wf = true ∧ matchedIn (.wrCount 3 255) .done = true) := by decide

theorem witness_EncodeOfDecodedChunkIsIdentity : decodeChunk [0xFD, 0x00] = .ok (.run 62, [0x00]) := by decide

theorem witness_ChunkLengthFromFirstByte :
    chunkLength 0xFF ≤ [(0 : Byte), 0, 0, 0].length + 1 ∧ [(0 : Byte), 0, 0].length + 1 < chunkLength 0xFF
    ∧ chunkLength 0xFD ≤ ([] : List Byte).length + 1 := by decide

/-- The products of pixel X reduced to six bits, and their partial sums. -/
theorem witness_HashIsSumModuloSixtyFour :
    30 % 64 = pixelX.r.toNat * 3 % 64 ∧ 36 % 64 = pixelX.g.toNat * 5 % 64 ∧ 18 % 64 = pixelX.b.toNat * 7 % 64
    ∧ 53 % 64 = pixelX.a.toNat * 11 % 64 ∧ 2 % 64 = (30 + 36) % 64 ∧ 20 % 64 = (2 + 18) % 64 := by decide

theorem witness_LumaDifferenceWidthDoesNotMatter :
    (((-128 : Int) ≤ -128 ∧ (-128 : Int) ≤ 127) ∧ inLumaGreenRange 31 = true)
    ∧ (((-128 : Int) ≤ 127 ∧ (127 : Int) ≤ 127) ∧ inLumaGreenRange (-32) = true) := by decide

/-- A repetition, a hit, a miss with another slot beside it; another cache with the same pixel in the slot of the hash. -/
theorem witness_PixelStepTouchesOneSlot :
    pixelX = (inPixel pixelX pixelX 0 false).enc.prev
    ∧ (pixelX ≠ beforeIndex.enc.prev ∧ beforeIndex.enc.cache[pixelHash pixelX] = pixelX)
    ∧ (pixelX ≠ freshEncoder.prev ∧ freshEncoder.cache[pixelHash pixelX] ≠ pixelX ∧ (0 : Slot) ≠ pixelHash pixelX)
    ∧ beforeIndex.enc.cache[pixelHash zeroPixel] = freshEncoder.cache[pixelHash zeroPixel] := by
  decide

theorem witness_PixelOutputAndRunBounds :
    (inPixel pixelX pixelX 61 true).enc.run ≤ 61 ∧ pixelX.a = (inPixel pixelX pixelX 61 true).enc.prev.a := by decide

theorem witness_PixelOutputIsFlushThenChunk :
    (inPixel pixelX pixelX 61 false).enc.run ≤ 61
    ∧ selectChunk (inPixel pixelX pixelX 61 false).enc pixelX false = some (.run 62)
    ∧ zeroPixel ≠ (inPixel pixelX zeroPixel 61 false).enc.prev
    ∧ selectChunk (inPixel pixelX zeroPixel 61 false).enc zeroPixel false = some (.index 0) := by decide

/-- One selection of each kind: repetition, hit, LUMA, RGB. -/
theorem witness_SelectorNeverChooses :
    diffFits (-2) 1 (-2) = true
    ∧ (defaultPixel = freshEncoder.prev ∧ selectChunk freshEncoder defaultPixel true = some (.run 1))
    ∧ (pixelX ≠ beforeIndex.enc.prev ∧ beforeIndex.enc.cache[pixelHash pixelX] = pixelX
        ∧ selectChunk beforeIndex.enc pixelX false = some (.index 9))
    ∧ (pixelX.a = freshEncoder.prev.a ∧ selectChunk freshEncoder pixelX false = some (.rgb 10 20 30))
    ∧ selectChunk freshEncoder { r := 2, g := 0, b := 0, a := 255 } false = some (.luma 0 2 0) := by decide

/-- A state of an encode in the middle of its second pixel: it has the invariant. -/
def invState : State := { inPixel defaultPixel pixelX 1 false with nch := .three, pos := 1 }

theorem witness_inv : BlockInv invState ∧ invState.phase = .encode ∧ invState.nch = .three := by
  refine ⟨?_, rfl, rfl⟩
  constructor
  case cache =>
    intro _ _ i
    left
    show (Vector.replicate 64 zeroPixel)[i] = zeroPixel
    simp
  all_goals decide

theorem witness_ThreeChannelsNeverGiveRgba : BlockInv invState ∧ invState.phase = .encode ∧ invState.nch = .three
    ∧ selectChunk invState.enc invState.pxL invState.lastL = some (.rgb 10 20 30) :=
  ⟨witness_inv.1, rfl, rfl, by decide⟩

theorem witness_ImageLengthBounds : [pixelX, pixelX] ≠ [] ∧ ∀ p ∈ [pixelX, pixelX], p.a = 255 := by decide

theorem witness_RepetitionsBecomeRunChunks : freshEncoder.run = 0 ∧ 1 ≤ 1 ∧ 1 ≤ 62 ∧ pixelX ≠ freshEncoder.prev := by decide

/-- V-IDX-2: slot 31 is stored between two pixels of slot 9. -/
theorem witness_RevisitedPixelGivesIndex :
    pixelX ≠ freshEncoder.prev ∧ [({ r := 200, g := 100, b := 50, a := 255 } : Pixel)] ≠ []
    ∧ ∀ q ∈ [({ r := 200, g := 100, b := 50, a := 255 } : Pixel)], pixelHash q ≠ pixelHash pixelX := by decide

theorem witness_EncodeDoneAppliesEncodePixel :
    (inPixel pixelX pixelX 61 false).phase = .encode
    ∧ (encodePixel (inPixel pixelX pixelX 61 false).enc pixelX false).2 = [0xFD]
    ∧ (encodePixel (inPixel pixelX pixelX 60 false).enc pixelX false).2 = [] := by decide

theorem witness_RepetitionCountsOrFlushes :
    ((inPixel pixelX pixelX 60 false).phase = .encode
      ∧ (inPixel pixelX pixelX 60 false).pxL = (inPixel pixelX pixelX 60 false).enc.prev
      ∧ (inPixel pixelX pixelX 60 false).enc.run ≤ 61 ∧ (inPixel pixelX pixelX 60 false).enc.run ≠ 61
      ∧ (inPixel pixelX pixelX 60 false).lastL = false)
    ∧ ((inPixel pixelX pixelX 61 false).enc.run ≤ 61 ∧ (inPixel pixelX pixelX 61 false).enc.run = 61)
    ∧ ((inPixel pixelX pixelX 0 true).enc.run ≤ 61 ∧ (inPixel pixelX pixelX 0 true).lastL = true) := by decide

theorem witness_BreakFlushesTheRunFirst :
    ((inPixel pixelX zeroPixel 61 false).phase = .encode
      ∧ (inPixel pixelX zeroPixel 61 false).pxL ≠ (inPixel pixelX zeroPixel 61 false).enc.prev
      ∧ (inPixel pixelX zeroPixel 61 false).enc.run ≤ 61)
    ∧ (inPixel pixelX zeroPixel 0 false).pxL ≠ (inPixel pixelX zeroPixel 0 false).enc.prev := by decide

theorem witness_RunChunkCompletes :
    ((inPixel pixelX pixelX 61 false).phase = .encode
      ∧ (inPixel pixelX pixelX 61 false).pxL = (inPixel pixelX pixelX 61 false).enc.prev
      ∧ 62 = (inPixel pixelX pixelX 61 false).enc.run + 1)
    ∧ (1 = (inPixel pixelX pixelX 0 true).enc.run + 1 ∧ (inPixel pixelX pixelX 0 true).lastL = true)
    ∧ ((inPixel pixelX zeroPixel 1 false).pxL ≠ (inPixel pixelX zeroPixel 1 false).enc.prev
      ∧ 1 = (inPixel pixelX zeroPixel 1 false).enc.run ∧ 0 < 1) := by decide

theorem witness_IndexChunkCompletes :
    beforeIndex.phase = .encode ∧ beforeIndex.pxL ≠ beforeIndex.enc.prev ∧ (9 : Slot) = pixelHash beforeIndex.pxL
    ∧ beforeIndex.enc.cache[(9 : Slot)] = beforeIndex.pxL := by decide

/-- V-DIFF-2 and V-DIFF-3: both ends of the range. -/
theorem witness_DiffChunkCompletes :
    let s := inPixel defaultPixel { r := 254, g := 254, b := 254, a := 255 } 0 false
    let t := inPixel defaultPixel { r := 1, g := 1, b := 1, a := 255 } 61 true
    (s.phase = .encode ∧ s.pxL ≠ s.enc.prev ∧ s.enc.cache[pixelHash s.pxL] ≠ s.pxL ∧ s.pxL.a = s.enc.prev.a
      ∧ -2 = (s.pxL.r - s.enc.prev.r).toInt ∧ -2 = (s.pxL.g - s.enc.prev.g).toInt
      ∧ -2 = (s.pxL.b - s.enc.prev.b).toInt)
    ∧ (t.phase = .encode ∧ t.pxL ≠ t.enc.prev ∧ t.enc.cache[pixelHash t.pxL] ≠ t.pxL ∧ t.pxL.a = t.enc.prev.a
      ∧ 1 = (t.pxL.r - t.enc.prev.r).toInt ∧ 1 = (t.pxL.g - t.enc.prev.g).toInt
      ∧ 1 = (t.pxL.b - t.enc.prev.b).toInt) := by decide

/-- V-LUMA-13: 31, -8, 7. -/
theorem witness_LumaChunkCompletes :
    let s := inPixel defaultPixel { r := 23, g := 31, b := 38, a := 255 } 0 false
    s.phase = .encode ∧ s.pxL ≠ s.enc.prev ∧ s.enc.cache[pixelHash s.pxL] ≠ s.pxL ∧ s.pxL.a = s.enc.prev.a
      ∧ 23 = (s.pxL.r - s.enc.prev.r).toInt ∧ 31 = (s.pxL.g - s.enc.prev.g).toInt
      ∧ 38 = (s.pxL.b - s.enc.prev.b).toInt ∧ (-8 : Int) = 23 - 31 ∧ (7 : Int) = 38 - 31
      ∧ ¬(((-2 : Int) ≤ 23 ∧ (23 : Int) ≤ 1) ∧ ((-2 : Int) ≤ 31 ∧ (31 : Int) ≤ 1) ∧ ((-2 : Int) ≤ 38 ∧ (38 : Int) ≤ 1))
      := by decide

/-- V-RGB-2: green one past the range. -/
theorem witness_RgbChunkCompletes :
    let s := inPixel defaultPixel { r := 32, g := 32, b := 32, a := 255 } 0 false
    s.phase = .encode ∧ s.pxL ≠ s.enc.prev ∧ s.enc.cache[pixelHash s.pxL] ≠ s.pxL ∧ s.pxL.a = s.enc.prev.a
      ∧ 32 = (s.pxL.r - s.enc.prev.r).toInt ∧ 32 = (s.pxL.g - s.enc.prev.g).toInt
      ∧ 32 = (s.pxL.b - s.enc.prev.b).toInt
      ∧ ¬(((-2 : Int) ≤ 32 ∧ (32 : Int) ≤ 1) ∧ ((-2 : Int) ≤ 32 ∧ (32 : Int) ≤ 1) ∧ ((-2 : Int) ≤ 32 ∧ (32 : Int) ≤ 1))
      ∧ ¬(((-32 : Int) ≤ 32 ∧ (32 : Int) ≤ 31) ∧ ((-8 : Int) ≤ 32 - 32 ∧ (32 - 32 : Int) ≤ 7)
        ∧ ((-8 : Int) ≤ 32 - 32 ∧ (32 - 32 : Int) ≤ 7)) := by decide

/-- V-RGBA-1. -/
theorem witness_RgbaChunkCompletes :
    let s := inPixel defaultPixel { r := 0, g := 0, b := 0, a := 254 } 0 false
    s.phase = .encode ∧ s.pxL ≠ s.enc.prev ∧ s.enc.cache[pixelHash s.pxL] ≠ s.pxL ∧ s.pxL.a ≠ s.enc.prev.a := by decide

theorem witness_SelectedChunkIsTheEncodeDoneStep :
    invState.phase = .encode ∧ selectChunk invState.enc invState.pxL invState.lastL = some (.rgb 10 20 30) := by decide

/-- A chunk in IDLE, and in ENCODE one that is neither selected nor the RUN of the broken run. -/
theorem witness_UnselectedChunkChangesNothing :
    (isChunk (.index 0) = true ∧ State.reset.phase ≠ .encode)
    ∧ (isChunk (.run 2) = true
      ∧ selectChunk invState.enc invState.pxL invState.lastL ≠ some (.run 2)
      ∧ ¬(invState.pxL ≠ invState.enc.prev ∧ 0 < invState.enc.run ∧ Instr.run 2 = .run invState.enc.run)) := by decide

theorem witness_ClearDoneZeroesTheCache : (inPhase .clear).phase = .clear ∧ (inPhase .clear).npix ≠ 0
    ∧ { inPhase .clear with npix := 0 }.phase = .clear := by decide

/-- The first byte, the byte before the last one and the last one, with three and four channels; a byte out of turn. -/
theorem witness_DataInTakesAChannelByte :
    ((inPhase .accept).phase = .accept ∧ (inPhase .accept).k + 1 ≠ channelCount (inPhase .accept).nch)
    ∧ ({ inPhase .accept with k := 2 }.k + 1 ≠ channelCount .four)
    ∧ ({ inPhase .accept with k := 3 }.k + 1 = channelCount .four)
    ∧ ({ inPhase .accept with k := 2, nch := .three }.k + 1 = channelCount .three)
    ∧ (inPhase .emit).phase ≠ .accept := by decide

theorem witness_ChannelBytesArriveInOrder : (inPhase .accept).phase = .accept ∧ (inPhase .accept).k = 0
    ∧ (inPhase .accept).nch = .four ∧ { inPhase .accept with nch := .three }.nch = .three := by decide

theorem witness_DataOutPopsTheOldestByte :
    ({ inPhase .emit with obuf := [1] }.phase = .emit ∧ { inPhase .emit with obuf := [1] }.obuf = 1 :: [])
    ∧ ({ inPhase .emit with obuf := [1, 2] }.obuf = 1 :: [2]) ∧ (inPhase .accept).phase ≠ .emit := by decide

theorem witness_CtrlWriteStartsAnEncode : (0x02 : Byte).getLsbD 0 = false ∧ (0xFF : Byte).getLsbD 0 = true := by decide

theorem witness_HardwareResetValues :
    { inPhase .emit with inputs := [.reset, readEvent 2] }.inputs = .reset :: [readEvent 2] := by decide

theorem witness_EveryStepKeepsBlockInv : BlockInv invState ∧ (nextOf (step invState)).isSome = true :=
  ⟨witness_inv.1, by decide⟩

/-- The state a step goes on to, or the state itself. -/
def stepped (s : State) : State :=
  match step s with
  | .next t => t
  | .fault _ => s
  | .refused _ => s

theorem reachable_stepped {s : State} (h : Reachable s) : Reachable (stepped s) := by
  unfold stepped
  split
  · exact .step h (by assumption)
  · exact h
  · exact h

/-- An encode of one pixel of three channels, in ACCEPT. -/
def oneAccept : State := stepped (stepped (stepped { State.reset with inputs := [writeEvent 4 1, writeEvent 3 1, .internal] }))
/-- The same encode with its pixel latched. -/
def oneEncode : State :=
  stepped (stepped (stepped { oneAccept with inputs := [writeEvent 0 9, writeEvent 0 9, writeEvent 0 9] }))

/-- The same encode with its output waiting. -/
def oneEmit : State := stepped oneEncode

/-- Reachable states in ACCEPT, ENCODE, EMIT and, with the last byte read, DONE. -/
theorem witness_ReachableStatesMeetTheInvariants :
    (Reachable oneAccept ∧ oneAccept.phase = .accept) ∧ (Reachable oneEncode ∧ oneEncode.phase = .encode)
    ∧ (Reachable oneEmit ∧ oneEmit.phase = .emit ∧ oneEmit.fin = true)
    ∧ (Reachable State.reset ∧ State.reset.phase ≠ .encode) := by
  have h1 : Reachable oneAccept := reachable_stepped (reachable_stepped (reachable_stepped (.arrive _ .reset)))
  have h2 : Reachable oneEncode := reachable_stepped (reachable_stepped (reachable_stepped (.arrive _ h1)))
  exact ⟨⟨h1, by decide⟩, ⟨h2, by decide⟩, ⟨reachable_stepped h2, by decide, by decide⟩, ⟨.reset, by decide⟩⟩

/-- The two bytes of the pixel's LUMA chunk are read: DONE. -/
def oneDone : State := stepped (stepped { oneEmit with inputs := [readEvent 1, readEvent 1] })

theorem witness_reachable_done : Reachable oneDone ∧ oneDone.phase = .done ∧ oneDone.phase ≠ .encode :=
  ⟨reachable_stepped (reachable_stepped (.arrive _ witness_ReachableStatesMeetTheInvariants.2.2.1.1)), by decide, by decide⟩

theorem witness_EveryOperationGoesOn : BlockInv invState
    ∧ ((inPhase .emit).phase = .emit ∧ (inPhase .emit).obuf = []) := ⟨witness_inv.1, by decide⟩

/-- START with an error standing, a later error, a first error of each kind, a host in turn, hardware reset. -/
theorem witness_ErrorRecordKeepsTheFirstError :
    (isStart (.wrCtrl 0x01) = true ∧ (nextOf (exec (.wrCtrl 0x01) { inPhase .done with err := true })).isSome = true)
    ∧ (isStart .rdDataOut = false ∧ { inPhase .done with err := true, errcode := 1 }.err = true
      ∧ (nextOf (exec .rdDataOut { inPhase .done with err := true, errcode := 1 })).isSome = true)
    ∧ ((inPhase .done).err = false ∧ (nextOf (exec .rdDataOut (inPhase .done))).isSome = true
      ∧ (nextOf (exec (.wrDataIn 1) (inPhase .done))).isSome = true)
    ∧ { inPhase .emit with inputs := [.reset] }.inputs = .reset :: [] := by decide

theorem witness_error_turns :
    inTurn (.wrDataIn 1) (inPhase .accept) ∧ inTurn .rdDataOut (inPhase .emit) ∧ ¬inTurn .rdDataOut (inPhase .done)
    ∧ ¬inTurn (.wrDataIn 1) (inPhase .done) :=
  ⟨rfl, rfl, by simp [inTurn, inPhase], by simp [inTurn, inPhase]⟩

theorem witness_LatchedConfigurationStays :
    (isStart (.wrCount 0 9) = false ∧ (nextOf (exec (.wrCount 0 9) (inPhase .accept))).isSome = true)
    ∧ (isStart (.wrCtrl 0x03) = true ∧ (nextOf (exec (.wrCtrl 0x03) (inPhase .accept))).isSome = true) := by decide

theorem witness_StartResetsTheEncoder : (0x01 : Byte).getLsbD 0 = true := by decide

theorem witness_HostAccessesLeaveTheCoreState :
    isHostAccess (.wrDataIn 1) = true ∧ isStart (.wrDataIn 1) = false
    ∧ (nextOf (exec (.wrDataIn 1) (inPhase .accept))).isSome = true
    ∧ isHostAccess (.wrCtrl 1) = true ∧ isStart (.wrCtrl 1) = true := by decide

theorem witness_EnabledInternalStepIsTaken :
    (isHostAccess (.wrDataIn 1) = true ∧ isStart (.wrDataIn 1) = false ∧ busy (inPhase .clear).phase = true
      ∧ (nextOf (exec (.wrDataIn 1) (inPhase .clear))).isSome = true)
    ∧ ((inPhase .encode).inputs = [] ∧ busy (inPhase .encode).phase = true) := by decide

theorem witness_CacheIsUnobservableBeforeClear : State.reset.phase = .idle ∧ (inPhase .clear).phase = .clear := by decide

/-- START; and a state in ACCEPT of whose encode nothing is delivered. -/
theorem witness_EveryOperationKeepsTracking :
    (isStart (.wrCtrl 1) = true ∧ (nextOf (exec (.wrCtrl 1) (inPhase .emit))).isSome = true)
    ∧ (isStart (.wrDataIn 7) = false ∧ Tracks [] [] { inPhase .accept with enc := freshEncoder }
      ∧ (nextOf (exec (.wrDataIn 7) { inPhase .accept with enc := freshEncoder })).map (·.err) = some false) :=
  ⟨by decide, by decide, ⟨rfl, by decide, by decide, rfl⟩, by decide⟩

/-- The end of an encode of one default pixel, whose one byte was read. -/
theorem witness_TrackedEncodeEndsWithTheImage :
    { inPhase .done with npix := 1, enc := freshEncoder }.phase = .done
    ∧ { inPhase .done with npix := 1, enc := freshEncoder }.err = false
    ∧ Tracks [defaultPixel] [0xC0] { inPhase .done with npix := 1, enc := freshEncoder } :=
  ⟨rfl, rfl, rfl, rfl, by decide⟩

theorem witness_HostGetsTheEncodedImage : [pixelX] ≠ [] ∧ [pixelX].length < 2 ^ 32 := by decide

/-- The largest MAX_PIXELS (R301). -/
def mostPixels : Config.MaxPixels := ⟨858993454, by decide⟩

theorem witness_DescriptorValidation :
    validDescriptor mostPixels { width := 1, height := 858993454, channels := 4, colorspace := 0 } = true
    ∧ validDescriptor ⟨1, by decide⟩ { width := 1, height := 1, channels := 3, colorspace := 1 } = true := by decide

theorem witness_HeaderHoldsTheDescriptor :
    validDescriptor mostPixels { width := 858993454, height := 1, channels := 3, colorspace := 1 } = true := by decide

theorem witness_StreamLengthBounds :
    validDescriptor ⟨1, by decide⟩ { width := 1, height := 1, channels := 4, colorspace := 0 } = true
    ∧ [(0 : Byte), 0, 0, 0].length = 1 * 1 * 4 ∧ (1 ≤ 1 ∧ 1 ≤ 62) ∧ (1 ≤ 62 ∧ 62 ≤ 62) := by decide

/-- A valid image of three channels and one of four, with buffers of their size; an invalid descriptor; no buffer. -/
theorem witness_BlockGivesTheAssembledStream :
    (validDescriptor tenPixels { width := 1, height := 2, channels := 3, colorspace := 0 } = true
      ∧ [(1 : Byte), 2, 3, 4, 5, 6].length = 1 * 2 * 3)
    ∧ (validDescriptor tenPixels { width := 1, height := 1, channels := 4, colorspace := 0 } = true
      ∧ [(1 : Byte), 2, 3, 4].length = 1 * 1 * 4)
    ∧ checkRequest tenPixels true { width := 0, height := 1, channels := 3, colorspace := 0 } = .error .invalidDescriptor
    ∧ checkRequest tenPixels false { width := 1, height := 1, channels := 3, colorspace := 0 } = .error .allocationFailure := by
  decide

end Sys2Proof.Tests
end

section
/-! PROOFS. The state's own invariants (10_state.md): R53 in every reachable state by the inductive invariant `BlockInv`, the
error record (R49) and the latched configuration (R41) by what each operation can have done. -/

namespace Sys2Proof.Machine

/-! ### What a pixel step gives -/

/-- `last_l` as a statement (R38). -/
theorem atLastPixel_iff (s : State) : atLastPixel s = true ↔ s.pos.toNat + 1 = s.npix.toNat := by
  simp [atLastPixel]

/-- A position before another one does not wrap when it is counted on. -/
theorem toNat_add_one_of_lt {p n : Word32} (h : p.toNat < n.toNat) : (p + 1).toNat = p.toNat + 1 :=
  BitVec.toNat_add_of_lt (by simp; omega)

/-- After a pixel step `prev` is the pixel (R144). -/
@[simp] theorem encodePixel_prev (e : EncoderState) (px : Pixel) (isLast : Bool) :
    (encodePixel e px isLast).1.prev = px := by
  unfold encodePixel
  split
  · dsimp only
    split <;> rfl
  · obtain ⟨-, -, -, -, hprev⟩ := ownChunk_spec e px
    exact hprev

/-- A pixel step from a run of at most 61 leaves one of at most 61 (R31). -/
theorem encodePixel_run_le (e : EncoderState) (px : Pixel) (isLast : Bool) (h : e.run ≤ 61) :
    (encodePixel e px isLast).1.run ≤ 61 := by
  unfold encodePixel
  split
  · dsimp only
    split
    · exact Nat.zero_le _
    · simp only [Config.runMax] at *
      omega
  · obtain ⟨-, -, -, hrun, -⟩ := ownChunk_spec e px
    dsimp only
    omega

/-- No run is pending after the last pixel (R40, R164). -/
theorem encodePixel_run_of_last (e : EncoderState) (px : Pixel) : (encodePixel e px true).1.run = 0 := by
  unfold encodePixel
  split
  · simp
  · obtain ⟨-, -, -, hrun, -⟩ := ownChunk_spec e px
    exact hrun

/-- The output of a pixel fits the output buffer (R39, R146). -/
theorem encodePixel_length_le (e : EncoderState) (px : Pixel) (isLast : Bool) :
    (encodePixel e px isLast).2.length ≤ Config.obufDepth := by
  unfold encodePixel Config.obufDepth
  split
  · dsimp only
    split <;> simp
  · have hflush := flushBytes_length e.run
    obtain ⟨-, hown, -⟩ := ownChunk_spec e px
    simp only [List.length_append]
    omega

/-! ### Every operation on the state keeps the invariant -/

/-- The invariant after hardware reset (R52). -/
theorem blockInv_reset : BlockInv State.reset := by
  constructor <;> simp [State.reset, defaultPixel]

/-- The invariant speaks of no value returned to the host, neither of CH4 and COUNT, nor of the events to come. -/
theorem BlockInv.withHostFields {s : State} (h : BlockInv s) (rdata : Byte) (ch4 : Bool) (count : Word32)
    (inputs : List Event) :
    BlockInv { s with rdata := rdata, ch4 := ch4, count := count, inputs := inputs } where
  run_bound := h.run_bound
  no_error := h.no_error
  error := h.error
  waiting := h.waiting
  accept := h.accept
  encode := h.encode
  emit := h.emit
  done := h.done
  fin_set := h.fin_set
  three := h.three
  cache := h.cache

theorem returnByte_preserves_blockInv {s : State} (h : BlockInv s) (v : Byte) : BlockInv (returnByte v s) :=
  h.withHostFields v s.ch4 s.count s.inputs

/-- An error of code 1 or 2 leaves the invariant (R49, R331). -/
theorem protocolError_preserves_blockInv {s : State} (h : BlockInv s) {code : BitVec 2}
    (hc : code = codeOverrun ∨ code = codeUnderrun) : BlockInv (protocolError code s) where
  run_bound := by simpa using h.run_bound
  no_error := by simp
  error := by
    intro _
    cases he : s.err with
    | false => simpa [he] using hc
    | true => simpa [he] using h.error he
  waiting := by simpa using h.waiting
  accept := by simpa using h.accept
  encode := by simpa [atLastPixel] using h.encode
  emit := by simpa using h.emit
  done := by simpa using h.done
  fin_set := by simpa using h.fin_set
  three := by simpa using h.three
  cache := by simpa using h.cache

/-- A channel count is positive (R8). -/
theorem channelCount_pos (n : Channels) : 0 < channelCount n := by cases n <;> decide

/-- Every slot of the cleared cache is the cleared pixel (R32). -/
theorem getElem_clearedCache (i : Slot) : clearedCache[i] = zeroPixel := by
  simp [clearedCache]

/-- What R53 asks of the three phases in which the block waits for the host during an encode. -/
def WaitsForHost (s : State) : Prop :=
  (s.phase = .accept ∧ s.obuf = [] ∧ s.pos.toNat < s.npix.toNat ∧ s.k < channelCount s.nch)
    ∨ (s.phase = .emit ∧ s.obuf ≠ [] ∧ s.obuf.length ≤ Config.obufDepth ∧ s.k = 0
        ∧ s.pos.toNat ≤ s.npix.toNat ∧ (s.fin = true ↔ s.pos = s.npix))
    ∨ (s.phase = .done ∧ s.obuf = [] ∧ s.pos = s.npix)

/-- A waiting block meets the invariant if the fields that do not depend on the phase do. -/
theorem WaitsForHost.blockInv {s : State} (hw : WaitsForHost s) (hbound : s.enc.run ≤ 61)
    (hno_error : s.err = false → s.errcode = 0)
    (herror : s.err = true → s.errcode = codeOverrun ∨ s.errcode = codeUnderrun)
    (hfin : s.fin = true → s.enc.run = 0 ∧ s.pos = s.npix) (halpha : s.nch = .three → s.enc.prev.a = 255)
    (hcache : ∀ i : Slot, s.enc.cache[i] = zeroPixel ∨ pixelHash s.enc.cache[i] = i) : BlockInv s where
  run_bound := hbound
  no_error := hno_error
  error := herror
  waiting := fun hp => by rcases hp with hp | hp <;> simp [WaitsForHost, hp] at hw
  accept := fun hp => by simpa [WaitsForHost, hp] using hw
  encode := fun hp => by simp [WaitsForHost, hp] at hw
  emit := fun hp => by simpa [WaitsForHost, hp] using hw
  done := fun hp => by simpa [WaitsForHost, hp] using hw
  fin_set := hfin
  three := fun hn => ⟨halpha hn, fun hp => by simp [WaitsForHost, hp] at hw⟩
  cache := fun _ _ => hcache

/-- Between two pixels the output buffer decides the phase: EMIT while it holds bytes, then DONE after the last pixel,
else ACCEPT (R254, R271). -/
theorem waitsForHost_of_drain {s : State} (hphase : s.phase = if s.obuf = [] then afterDrain s.fin else .emit)
    (hlen : s.obuf.length ≤ Config.obufDepth) (hk : s.k = 0) (hle : s.pos.toNat ≤ s.npix.toNat)
    (hfin : s.fin = true ↔ s.pos = s.npix) : WaitsForHost s := by
  by_cases hobuf : s.obuf = []
  · rw [if_pos hobuf] at hphase
    cases hf : s.fin with
    | true => exact .inr (.inr ⟨by rw [hphase, hf]; rfl, hobuf, hfin.mp hf⟩)
    | false =>
      have hne : s.pos.toNat ≠ s.npix.toNat := fun heq => by
        simp [hfin.mpr (BitVec.eq_of_toNat_eq heq)] at hf
      exact .inl ⟨by rw [hphase, hf]; rfl, hobuf, by omega, by rw [hk]; exact channelCount_pos _⟩
  · rw [if_neg hobuf] at hphase
    exact .inr (.inl ⟨hphase, hobuf, hlen, hk, hle, hfin⟩)

/-- The byte that completes a pixel leads to ENCODE with the pixel latched (R252). -/
theorem acceptByte_last_preserves_blockInv {s : State} (h : BlockInv s) (hp : s.phase = .accept)
    (hlast : s.k + 1 = channelCount s.nch) (v : Byte) : BlockInv (acceptByte v s) := by
  obtain ⟨hobuf, hpos, -⟩ := h.accept hp
  exact {
    run_bound := by simpa using h.run_bound
    no_error := by simpa using h.no_error
    error := by simpa using h.error
    waiting := by simp [hlast]
    accept := by simp [hlast]
    encode := by simp [hlast, hobuf, hpos, atLastPixel]
    emit := by simp [hlast]
    done := by simp [hlast]
    fin_set := by simpa using h.fin_set
    three := fun hn => by
      rw [acceptByte_nch] at hn
      exact ⟨by simpa using (h.three hn).1, fun _ => by simp [acceptByte, hlast, hn, alphaOf]⟩
    cache := fun _ _ => by simpa using h.cache (by simp [hp]) (by simp [hp]) }

/-- A channel byte in ACCEPT: the last one of a pixel leads to ENCODE, any other one counts `k` on (R252). -/
theorem acceptByte_preserves_blockInv {s : State} (h : BlockInv s) (hp : s.phase = .accept) (v : Byte) :
    BlockInv (acceptByte v s) := by
  by_cases hlast : s.k + 1 = channelCount s.nch
  · exact acceptByte_last_preserves_blockInv h hp hlast v
  · obtain ⟨hobuf, hpos, hk⟩ := h.accept hp
    have hwaits : WaitsForHost (acceptByte v s) :=
      .inl ⟨by simp [hlast, hp], by simpa using hobuf, by simpa using hpos, by simp [hlast]; omega⟩
    exact hwaits.blockInv (by simpa using h.run_bound) (by simpa using h.no_error) (by simpa using h.error)
      (by simpa using h.fin_set) (fun hn => by simpa using (h.three (by simpa using hn)).1)
      (by simpa using h.cache (by simp [hp]) (by simp [hp]))

/-- START leaves nothing under way, whatever was (R262). -/
theorem blockInv_start (s : State) : BlockInv (start s) := by
  constructor <;> simp [defaultPixel]

/-- CLEAR-done leads to DONE when there is no pixel to encode, else to ACCEPT (R270). -/
theorem clearCache_preserves_blockInv {s : State} (h : BlockInv s) (hp : s.phase = .clear) : BlockInv (clearCache s) := by
  obtain ⟨hobuf, hfin, hk, hpos⟩ := h.waiting (.inr hp)
  have hwaits : WaitsForHost (clearCache s) := by
    by_cases hnpix : s.npix = 0
    · exact .inr (.inr ⟨by simp [hnpix], hobuf, by simp [hpos, hnpix]⟩)
    · have hlt : 0 < s.npix.toNat := Nat.pos_of_ne_zero fun h0 => hnpix (BitVec.eq_of_toNat_eq h0)
      exact .inl ⟨by rw [clearCache_phase, if_neg hnpix], hobuf, by simpa [hpos] using hlt,
        by simpa [hk] using channelCount_pos s.nch⟩
  exact hwaits.blockInv h.run_bound h.no_error h.error h.fin_set (fun hn => (h.three hn).1)
    fun i => .inl (getElem_clearedCache i)

/-- A byte read in EMIT (R254). -/
theorem popByte_preserves_blockInv {s : State} (h : BlockInv s) (hp : s.phase = .emit) {v : Byte} {rest : List Byte}
    (ho : s.obuf = v :: rest) : BlockInv (popByte v rest s) := by
  obtain ⟨-, hlen, hk, hle, hfin⟩ := h.emit hp
  rw [ho] at hlen
  have hwaits : WaitsForHost (popByte v rest s) :=
    waitsForHost_of_drain (by rw [popByte_phase, hp]; rfl) (Nat.le_of_succ_le hlen) hk hle hfin
  exact hwaits.blockInv h.run_bound h.no_error h.error h.fin_set (fun hn => (h.three hn).1)
    (h.cache (by simp [hp]) (by simp [hp]))

/-- The end of a pixel step (R271). -/
theorem finishPixel_preserves_blockInv {s : State} (h : BlockInv s) (hp : s.phase = .encode) :
    BlockInv (finishPixel (encodePixel s.enc s.pxL s.lastL).1 (encodePixel s.enc s.pxL s.lastL).2 s) := by
  obtain ⟨-, hlt, hk, hlast⟩ := h.encode hp
  have hpos := toNat_add_one_of_lt hlt
  have hfin : s.lastL = true ↔ s.pos + 1 = s.npix := by
    rw [hlast, atLastPixel_iff, ← hpos, BitVec.toNat_inj]
  have hrun : s.lastL = true → (encodePixel s.enc s.pxL s.lastL).1.run = 0 := fun hf => by
    rw [hf]
    exact encodePixel_run_of_last ..
  have hwaits := waitsForHost_of_drain
    (s := finishPixel (encodePixel s.enc s.pxL s.lastL).1 (encodePixel s.enc s.pxL s.lastL).2 s)
    rfl (encodePixel_length_le ..) hk (by rw [finishPixel_pos, hpos]; exact hlt) hfin
  exact hwaits.blockInv (encodePixel_run_le _ _ _ h.run_bound) h.no_error h.error
    (fun hf => ⟨hrun hf, hfin.mp hf⟩)
    (fun hn => by
      rw [finishPixel_enc, encodePixel_prev]
      exact (h.three hn).2 hp)
    (cache_form_encodePixel _ _ _ (h.cache (by simp [hp]) (by simp [hp])))

/-! ### Every step keeps the invariant -/

theorem exec_preserves_blockInv {s t : State} {i : Instr} (h : BlockInv s) (he : exec i s = .next t) : BlockInv t := by
  rcases exec_next_cases s t i he with rfl | ⟨v, -, hp, rfl⟩ | ⟨v, -, -, rfl⟩ | ⟨v, rest, -, hp, ho, rfl⟩ | ⟨-, -, rfl⟩
    | ⟨v, -, -, -, rfl⟩ | ⟨v, -, -, rfl⟩ | ⟨v, -, -, rfl⟩ | ⟨j, v, -, rfl⟩ | ⟨-, hp, rfl⟩ | ⟨-, hp, rfl⟩
  · exact h
  · exact acceptByte_preserves_blockInv h hp v
  · exact protocolError_preserves_blockInv h (.inl rfl)
  · exact popByte_preserves_blockInv h hp ho
  · exact returnByte_preserves_blockInv (protocolError_preserves_blockInv h (.inr rfl)) 0
  · exact returnByte_preserves_blockInv h v
  · exact blockInv_start _
  · exact h.withHostFields s.rdata (v.getLsbD 1) s.count s.inputs
  · exact h.withHostFields s.rdata s.ch4 (withCountByte s.count j v) s.inputs
  · exact clearCache_preserves_blockInv h hp
  · exact finishPixel_preserves_blockInv h hp

theorem step_preserves_blockInv {s t : State} (h : BlockInv s) (hs : step s = .next t) : BlockInv t := by
  obtain ⟨inputs, ⟨i, he⟩ | rfl | rfl⟩ := step_next_cases s t hs
  · exact exec_preserves_blockInv (h.withHostFields s.rdata s.ch4 s.count inputs) he
  · exact h.withHostFields s.rdata s.ch4 s.count inputs
  · exact blockInv_reset.withHostFields State.reset.rdata State.reset.ch4 State.reset.count inputs

/-- The invariant holds in every run from hardware reset. -/
theorem blockInv_of_reachable {s : State} (hr : Reachable s) : BlockInv s := by
  induction hr with
  | reset => exact blockInv_reset
  | @arrive s events _ ih => exact ih.withHostFields s.rdata s.ch4 s.count events
  | step _ hs ih => exact step_preserves_blockInv ih hs

/-- Settles O46: the invariant of every reachable state holds what R53 states phase by phase. -/
theorem reachableStatesMeetTheInvariants : Obligations.ReachableStatesMeetTheInvariants := by
  intro s hr
  have h := blockInv_of_reachable hr
  refine ⟨h.accept, fun hp => ?_, fun hp => ?_, h.done, fun _ => h.run_bound, h.fin_set⟩
  · obtain ⟨-, hpos, hk, -⟩ := h.encode hp
    exact ⟨hpos, hk⟩
  · obtain ⟨hne, hlen, -⟩ := h.emit hp
    exact ⟨hne, hlen⟩

/-! ### The error record and the latched configuration -/

/-- An operation that performs START is `start` with some new CH4 (R259). -/
theorem exec_of_isStart {s t : State} {i : Instr} (hi : isStart i = true) (he : exec i s = .next t) :
    ∃ ch4, t = start { s with ch4 := ch4 } := by
  cases i with
  | wrCtrl v =>
    have hv : v.getLsbD 0 = true := hi
    simp only [exec, execWrCtrl, hv, if_true] at he
    injection he with he
    exact ⟨_, he.symm⟩
  | _ => simp [isStart] at hi

/-- An operation other than START leaves the channel count and the pixel count latched (R41). -/
theorem exec_latched_of_not_isStart {s t : State} {i : Instr} (hi : isStart i = false) (he : exec i s = .next t) :
    t.nch = s.nch ∧ t.npix = s.npix := by
  rcases exec_next_cases s t i he with rfl | ⟨v, -, -, rfl⟩ | ⟨v, -, -, rfl⟩ | ⟨v, rest, -, -, -, rfl⟩ | ⟨-, -, rfl⟩
    | ⟨v, -, -, -, rfl⟩ | ⟨v, rfl, hv, -⟩ | ⟨v, -, -, rfl⟩ | ⟨j, v, -, rfl⟩ | ⟨-, -, rfl⟩ | ⟨-, -, rfl⟩
  · exact ⟨rfl, rfl⟩
  · exact ⟨acceptByte_nch v s, acceptByte_npix v s⟩
  · exact ⟨protocolError_nch codeOverrun s, protocolError_npix codeOverrun s⟩
  · exact ⟨rfl, rfl⟩
  · exact ⟨protocolError_nch codeUnderrun s, protocolError_npix codeUnderrun s⟩
  · exact ⟨rfl, rfl⟩
  · cases hv.symm.trans hi
  all_goals exact ⟨rfl, rfl⟩

/-- An operation in turn, other than START, leaves the error record (R49, R331). -/
theorem exec_error_of_inTurn {s t : State} {i : Instr} (hi : isStart i = false) (ht : inTurn i s)
    (he : exec i s = .next t) : t.err = s.err ∧ t.errcode = s.errcode := by
  rcases exec_next_cases s t i he with rfl | ⟨v, -, -, rfl⟩ | ⟨v, rfl, hp, -⟩ | ⟨v, rest, -, -, -, rfl⟩ | ⟨rfl, hp, -⟩
    | ⟨v, -, -, -, rfl⟩ | ⟨v, rfl, hv, -⟩ | ⟨v, -, -, rfl⟩ | ⟨j, v, -, rfl⟩ | ⟨-, -, rfl⟩ | ⟨-, -, rfl⟩
  · exact ⟨rfl, rfl⟩
  · exact ⟨acceptByte_err v s, acceptByte_errcode v s⟩
  · exact absurd ht hp
  · exact ⟨rfl, rfl⟩
  · exact absurd ht hp
  · exact ⟨rfl, rfl⟩
  · cases hv.symm.trans hi
  all_goals exact ⟨rfl, rfl⟩

/-- An operation out of turn raises an error, and its code is recorded if no error stands (R253, R255, R331). -/
theorem exec_error_of_not_inTurn {s t : State} {i : Instr} (ht : ¬inTurn i s) (he : exec i s = .next t) :
    t.err = true
      ∧ t.errcode = if s.err then s.errcode else if i = .rdDataOut then codeUnderrun else codeOverrun := by
  cases i with
  | wrDataIn v =>
    have hp : s.phase ≠ .accept := ht
    simp only [exec, execWrDataIn, hp, if_false] at he
    injection he with he
    subst he
    simp
  | rdDataOut =>
    have hp : s.phase ≠ .emit := ht
    simp only [exec, execRdDataOut, hp, if_false] at he
    injection he with he
    subst he
    simp
  | _ => exact absurd trivial ht

/-- Hardware reset as the next event (R360). -/
theorem step_of_reset {s : State} {rest : List Event} (h : s.inputs = .reset :: rest) :
    step s = .next (hardwareReset { s with inputs := rest }) := by
  simp [step, fetch, h, fetchEvent, decode]

/-- Settles O48: START and hardware reset clear the record, an operation in turn leaves it, one out of turn records its
error if no error stands. -/
theorem errorRecordKeepsTheFirstError : Obligations.ErrorRecordKeepsTheFirstError := by
  refine ⟨fun s t i he => ⟨fun hi => ?_, fun hi herr => ?_, fun hi herr => ⟨fun ht => ?_, fun ht => ?_⟩⟩,
    fun s rest h => ⟨_, step_of_reset h, rfl, rfl⟩⟩
  · obtain ⟨ch4, rfl⟩ := exec_of_isStart hi he
    exact ⟨rfl, rfl⟩
  · by_cases ht : inTurn i s
    · rw [← herr]
      exact exec_error_of_inTurn hi ht he
    · simpa [herr] using exec_error_of_not_inTurn ht he
  · rw [← herr]
    exact exec_error_of_inTurn hi ht he
  · simpa [herr, codeUnderrun, codeOverrun] using exec_error_of_not_inTurn ht he

/-- Settles O49: START latches CH4 and COUNT, and no other operation writes what is latched. -/
theorem latchedConfigurationStays : Obligations.LatchedConfigurationStays := by
  refine fun s t i he => ⟨fun hi => ?_, fun hi => exec_latched_of_not_isStart hi he⟩
  obtain ⟨ch4, rfl⟩ := exec_of_isStart hi he
  exact ⟨rfl, rfl, rfl⟩

end Sys2Proof.Machine
end

section
/-! PROOFS. The cache in a pixel step (20_memory.md): which slot the step writes (R77, R181 to R183), and that its output
depends on no slot but the one of the pixel's hash. -/

namespace Sys2Proof.Machine

/-- A store leaves every slot but its own (R183). -/
theorem getElem_store_of_ne (d : Vector Pixel 64) (px : Pixel) {i j : Slot} (h : j ≠ i) : (d.set i px)[j] = d[j] :=
  Vector.getElem_set_ne i.isLt j.isLt fun heq => h (Fin.ext heq.symm)

/-- A hit emits INDEX and stores nothing (R182). -/
theorem ownChunk_of_hit {e : EncoderState} {px : Pixel} (h : e.cache[pixelHash px] = px) :
    ownChunk e px = (advance e px false, [indexByte (pixelHash px)]) :=
  if_pos (decide_eq_true h)

/-- A miss emits the chunk of a miss and stores the pixel (R183). -/
theorem ownChunk_of_miss {e : EncoderState} {px : Pixel} (h : e.cache[pixelHash px] ≠ px) :
    ownChunk e px = (advance e px true, chunkBytes (missChunk e.prev px)) :=
  if_neg (mt of_decide_eq_true h)

/-- A pixel step that is no repetition: the pixel's own chunk after the flush of a pending run (R140, R163). -/
theorem encodePixel_of_ne {e : EncoderState} {px : Pixel} (h : px ≠ e.prev) (isLast : Bool) :
    encodePixel e px isLast = ((ownChunk e px).1, flushBytes e.run ++ (ownChunk e px).2) :=
  if_neg h

/-- A repetition leaves the cache (R77). -/
theorem encodePixel_cache_of_eq {e : EncoderState} {px : Pixel} (h : px = e.prev) (isLast : Bool) :
    (encodePixel e px isLast).1.cache = e.cache := by
  rw [encodePixel, if_pos h]
  dsimp only
  split <;> rfl

/-- A hit leaves the cache (R182). -/
theorem encodePixel_cache_of_hit {e : EncoderState} {px : Pixel} (hne : px ≠ e.prev) (hhit : e.cache[pixelHash px] = px)
    (isLast : Bool) : (encodePixel e px isLast).1.cache = e.cache := by
  rw [encodePixel_of_ne hne, ownChunk_of_hit hhit]
  rfl

/-- A miss stores the pixel in the slot of its hash (R183). -/
theorem encodePixel_cache_of_miss {e : EncoderState} {px : Pixel} (hne : px ≠ e.prev)
    (hmiss : e.cache[pixelHash px] ≠ px) (isLast : Bool) :
    (encodePixel e px isLast).1.cache = e.cache.set (pixelHash px) px := by
  rw [encodePixel_of_ne hne, ownChunk_of_miss hmiss]
  rfl

/-- The bytes of a repetition come from `prev` and `run` alone (R161, R162). -/
theorem encodePixel_output_of_eq {e : EncoderState} {px : Pixel} (h : px = e.prev) (isLast : Bool) :
    (encodePixel e px isLast).2 = if e.run + 1 = Config.runMax ∨ isLast then [runByte (e.run + 1)] else [] := by
  rw [encodePixel, if_pos h]
  dsimp only
  split <;> rfl

/-- Two caches that agree on the slot of the pixel give it the same chunk: both hit or both miss. -/
theorem ownChunk_output_congr {e : EncoderState} {px : Pixel} {other : Vector Pixel 64}
    (h : other[pixelHash px] = e.cache[pixelHash px]) :
    (ownChunk { e with cache := other } px).2 = (ownChunk e px).2 := by
  by_cases hhit : e.cache[pixelHash px] = px
  · rw [ownChunk_of_hit hhit, ownChunk_of_hit (h.trans hhit)]
  · rw [ownChunk_of_miss hhit, ownChunk_of_miss (h.trans_ne hhit)]

/-- The output of a pixel step reads no slot but the one of the hash, and none for a repetition (R77). -/
theorem encodePixel_output_congr {e : EncoderState} {px : Pixel} {other : Vector Pixel 64}
    (h : px = e.prev ∨ other[pixelHash px] = e.cache[pixelHash px]) (isLast : Bool) :
    (encodePixel { e with cache := other } px isLast).2 = (encodePixel e px isLast).2 := by
  by_cases heq : px = e.prev
  · rw [encodePixel_output_of_eq heq, encodePixel_output_of_eq (e := { e with cache := other }) heq]
  · rw [encodePixel_of_ne heq, encodePixel_of_ne (e := { e with cache := other }) heq,
      ownChunk_output_congr (h.resolve_left heq)]

/-- Settles O13: a repetition and a hit leave the cache, a miss stores the pixel in the slot of its hash, and the output
reads at most that slot. -/
theorem pixelStepTouchesOneSlot : Obligations.PixelStepTouchesOneSlot := by
  refine fun e px isLast => ⟨fun heq => encodePixel_cache_of_eq heq isLast,
    fun hne hhit => encodePixel_cache_of_hit hne hhit isLast, fun hne hmiss => ?_,
    fun other h => encodePixel_output_congr h isLast⟩
  rw [encodePixel_cache_of_miss hne hmiss]
  exact ⟨Vector.getElem_set_self _, fun j hj => getElem_store_of_ne e.cache px hj⟩

end Sys2Proof.Machine
end

section
/-! PROOFS. The length map of R109 (30_encoding.md): a chunk's length follows from its first byte alone, and the decoder
takes exactly that many bytes or fails as truncated. -/

namespace Sys2Proof

/-- The field of R11 is the bit slice of the library, read as a number. -/
theorem bits_eq_extractLsb_toNat (v : Byte) (hi lo : Nat) (h : lo ≤ hi) : bits v hi lo = (v.extractLsb hi lo).toNat := by
  rw [bits, BitVec.extractLsb_toNat, Nat.shiftRight_eq_div_pow, Nat.sub_add_comm h]

/-- The tag bits of R101 are 10 as a number exactly if they are as a slice. -/
theorem tagBits_eq_two_iff (v : Byte) : bits v 7 6 = 2 ↔ v.extractLsb 7 6 = 0b10#2 := by
  rw [bits_eq_extractLsb_toNat v 7 6 (by decide), BitVec.toNat_eq]
  rfl

/-- Tag bits other than 10 (R101). -/
theorem tagBits_of_ne_two {v : Byte} (h : bits v 7 6 ≠ 2) : bits v 7 6 = 0 ∨ bits v 7 6 = 1 ∨ bits v 7 6 = 3 := by
  have hlt : bits v 7 6 < 4 := Nat.mod_lt _ (by decide)
  omega

/-- R109 for one first byte and length: with bytes enough the decoder takes `len` of them, with fewer it fails as
truncated. -/
def TakesExactly (len : Nat) (byte0 : Byte) (tail : List Byte) : Prop :=
  (len ≤ tail.length + 1 → ∃ i, decodeChunk (byte0 :: tail) = .ok (i, tail.drop (len - 1)))
  ∧ (tail.length + 1 < len → decodeChunk (byte0 :: tail) = .error .truncatedChunk)

/-- A chunk that was read from bytes enough. -/
theorem TakesExactly.of_ok {len : Nat} {byte0 : Byte} {tail : List Byte} {i : Instr} (hlen : len ≤ tail.length + 1)
    (h : decodeChunk (byte0 :: tail) = .ok (i, tail.drop (len - 1))) : TakesExactly len byte0 tail :=
  ⟨fun _ => ⟨i, h⟩, fun hlt => absurd hlen (Nat.not_le_of_lt hlt)⟩

/-- A reading that failed for want of bytes. -/
theorem TakesExactly.of_truncated {len : Nat} {byte0 : Byte} {tail : List Byte} (hlen : tail.length + 1 < len)
    (h : decodeChunk (byte0 :: tail) = .error .truncatedChunk) : TakesExactly len byte0 tail :=
  ⟨fun hle => absurd hle (Nat.not_le_of_lt hlen), fun _ => h⟩

/-- First byte 0xFF (R107): five bytes. -/
theorem takesExactly_rgba : ∀ tail, TakesExactly 5 Config.tagRgba tail
  | r :: g :: b :: a :: rest => .of_ok (by simp) (decodeChunk_rgba r g b a rest)
  | [] | [_] | [_, _] | [_, _, _] => .of_truncated (by simp) rfl

/-- First byte 0xFE (R106): four bytes. -/
theorem takesExactly_rgb : ∀ tail, TakesExactly 4 Config.tagRgb tail
  | r :: g :: b :: rest => .of_ok (by simp) (decodeChunk_rgb r g b rest)
  | [] | [_] | [_, _] => .of_truncated (by simp) rfl

/-- Tag bits 10 (R104): two bytes. -/
theorem takesExactly_luma {byte0 : Byte} (hrgba : byte0 ≠ Config.tagRgba) (hrgb : byte0 ≠ Config.tagRgb)
    (htag : bits byte0 7 6 = 2) : ∀ tail, TakesExactly 2 byte0 tail
  | [] => .of_truncated (by simp) (by simp only [decodeChunk, hrgba, hrgb, htag, if_false])
  | _ :: rest => .of_ok (by simp) (by simp only [decodeChunk, hrgba, hrgb, htag, if_false]; rfl)

/-- Any other tag of two bits (R102, R103, R105): the first byte is the chunk. -/
theorem takesExactly_oneByte {byte0 : Byte} (hrgba : byte0 ≠ Config.tagRgba) (hrgb : byte0 ≠ Config.tagRgb)
    (htag : bits byte0 7 6 ≠ 2) (tail : List Byte) : TakesExactly 1 byte0 tail := by
  rcases tagBits_of_ne_two htag with h | h | h
  all_goals exact .of_ok (by simp) (by simp only [decodeChunk, hrgba, hrgb, h, if_false]; rfl)

/-- The decoder takes as many bytes as the length map of R109 says. -/
theorem takesExactly_chunkLength (byte0 : Byte) (tail : List Byte) : TakesExactly (chunkLength byte0) byte0 tail := by
  by_cases hrgba : byte0 = Config.tagRgba
  · subst hrgba
    exact takesExactly_rgba tail
  by_cases hrgb : byte0 = Config.tagRgb
  · subst hrgb
    exact takesExactly_rgb tail
  rw [Laws.EncodingLength.chunkLength_of_bits byte0 hrgba hrgb]
  split
  case isTrue htag => exact takesExactly_luma hrgba hrgb htag tail
  case isFalse htag => exact takesExactly_oneByte hrgba hrgb htag tail

/-- Settles O7: the length map is that of R109, its tag read as a bit slice, and the decoder keeps to it. -/
theorem chunkLengthFromFirstByte : Obligations.ChunkLengthFromFirstByte := by
  refine fun byte0 tail => ⟨?_, takesExactly_chunkLength byte0 tail⟩
  simp only [chunkLength, tagBits_eq_two_iff]
  rfl

end Sys2Proof
end

section
/-! PROOFS. The selected chunk of a pixel step (40_pixel_operation.md): `prev` after it (R144) and its bytes as the flush of a
pending run and the selected chunk (R145). -/

namespace Sys2Proof.Machine

/-- Settles O12, by the law of `prev` in a pixel step. -/
theorem prevIsThePixelJustEncoded : Obligations.PrevIsThePixelJustEncoded :=
  encodePixel_prev

/-- The selector at a repetition: RUN at the cap and at the last pixel, else no chunk (R141). -/
theorem selectChunk_of_eq {e : EncoderState} {px : Pixel} (h : px = e.prev) (isLast : Bool) :
    selectChunk e px isLast = if e.run + 1 = Config.runMax ∨ isLast then some (.run (e.run + 1)) else none :=
  if_pos h

/-- The selector at a hit: INDEX (R141, R182). -/
theorem selectChunk_of_hit {e : EncoderState} {px : Pixel} (hne : px ≠ e.prev) (hhit : e.cache[pixelHash px] = px)
    (isLast : Bool) : selectChunk e px isLast = some (.index (pixelHash px)) := by
  rw [selectChunk, if_neg hne]
  exact if_pos (decide_eq_true hhit)

/-- The selector at a miss: the chunk of a miss (R141, R183). -/
theorem selectChunk_of_miss {e : EncoderState} {px : Pixel} (hne : px ≠ e.prev) (hmiss : e.cache[pixelHash px] ≠ px)
    (isLast : Bool) : selectChunk e px isLast = some (missChunk e.prev px) := by
  rw [selectChunk, if_neg hne]
  exact if_neg (mt of_decide_eq_true hmiss)

/-- A pixel that is no repetition has a selected chunk, which gives the bytes of its own chunk, is well formed and is no
RUN. -/
theorem selectChunk_of_ne {e : EncoderState} {px : Pixel} (hne : px ≠ e.prev) (isLast : Bool) :
    ∃ i, selectChunk e px isLast = some i ∧ (ownChunk e px).2 = chunkBytes i
      ∧ (i.wf = true ∧ isChunk i = true) ∧ ∀ n, i ≠ .run n := by
  by_cases hhit : e.cache[pixelHash px] = px
  · exact ⟨.index (pixelHash px), selectChunk_of_hit hne hhit isLast, by rw [ownChunk_of_hit hhit]; rfl, ⟨rfl, rfl⟩, by simp⟩
  · obtain ⟨hwf, hchunk, -, -, -, hrun⟩ := missChunk_spec e.prev px
    exact ⟨missChunk e.prev px, selectChunk_of_miss hne hhit isLast, by rw [ownChunk_of_miss hhit], ⟨hwf, hchunk⟩, hrun⟩

/-- The flush as the bytes of a RUN chunk (R163). -/
theorem flushBytes_eq_chunkBytes (run : Nat) : flushBytes run = if 0 < run then chunkBytes (.run run) else [] := rfl

/-- The selected chunk is well formed: a run that it ends has at most 62 pixels (R31, R108). -/
theorem wf_of_selectChunk {e : EncoderState} {px : Pixel} {isLast : Bool} {i : Instr} (hrun : e.run ≤ 61)
    (hi : selectChunk e px isLast = some i) : i.wf = true ∧ isChunk i = true := by
  by_cases h : px = e.prev
  · rw [selectChunk_of_eq h, Option.ite_none_right_eq_some] at hi
    obtain ⟨-, hi⟩ := hi
    cases hi
    exact ⟨(inRunRange_iff _).2 (by omega), rfl⟩
  · obtain ⟨j, hj, -, hwf, -⟩ := selectChunk_of_ne h isLast
    cases hj.symm.trans hi
    exact hwf

/-- Settles O15: a repetition gives the bytes of its RUN or none; any other pixel gives the flush and its own chunk, which is
the selected one. -/
theorem pixelOutputIsFlushThenChunk : Obligations.PixelOutputIsFlushThenChunk := by
  refine fun e px isLast hrun => ⟨?_, fun hne => ?_, fun i => wf_of_selectChunk hrun⟩
  · by_cases h : px = e.prev
    · rw [encodePixel_output_of_eq h, selectChunk_of_eq h, if_neg (c := px ≠ e.prev ∧ 0 < e.run) fun hbreak => hbreak.1 h]
      split <;> rfl
    · obtain ⟨i, hi, hbytes, -, -⟩ := selectChunk_of_ne h isLast
      simp only [encodePixel_of_ne h, hi, hbytes, flushBytes_eq_chunkBytes, ne_eq, h, not_false_eq_true, true_and]
  · obtain ⟨i, hi, -, -, hkind⟩ := selectChunk_of_ne hne isLast
    exact ⟨i, hi, hkind⟩

end Sys2Proof.Machine
end

section
/-! PROOFS. The length of an image's chunk stream (R148): the flush of a run is paid for by a pixel of the run, so a pixel
costs no more than its own chunk. -/

namespace Sys2Proof.Machine

/-- A repetition that ends its run, at the cap or at the last pixel, and one that does not (R161, R162). -/
theorem encodePixel_of_eq {e : EncoderState} {px : Pixel} (h : px = e.prev) (isLast : Bool) :
    encodePixel e px isLast = if e.run + 1 = Config.runMax ∨ isLast then ({ e with run := 0 }, [runByte (e.run + 1)])
      else ({ e with run := e.run + 1 }, []) := by
  subst h
  exact if_pos rfl

/-- No run, no flush (R163). -/
@[simp] theorem flushBytes_zero : flushBytes 0 = [] := rfl

/-- The last pixel emits at least one byte (R146). -/
theorem encodePixel_output_ne_nil_of_last (e : EncoderState) (px : Pixel) : (encodePixel e px true).2 ≠ [] := by
  by_cases h : px = e.prev
  · simp [encodePixel_output_of_eq h]
  · obtain ⟨hown, -⟩ := ownChunk_spec e px
    rw [encodePixel_of_ne h]
    exact List.append_ne_nil_of_right_ne_nil _ (List.ne_nil_of_length_pos hown)

/-- The bytes a pixel emits and the flush it leaves pending are at most the flush that was pending and the pixel's own
chunk. -/
theorem encodePixel_length_add_flush_le (e : EncoderState) (px : Pixel) (isLast : Bool) :
    (encodePixel e px isLast).2.length + (flushBytes (encodePixel e px isLast).1.run).length
      ≤ (flushBytes e.run).length + (ownChunk e px).2.length := by
  obtain ⟨hown, -, -, hrun, -⟩ := ownChunk_spec e px
  by_cases h : px = e.prev
  · rw [encodePixel_of_eq h]
    split
    · simp only [flushBytes_zero, List.length_nil, List.length_singleton]
      omega
    · have hflush := flushBytes_length (e.run + 1)
      simp only [List.length_nil]
      omega
  · simp [encodePixel_of_ne h, hrun]

/-- With at most `bound` bytes for each own chunk, where `p` says which pixels the image may hold, an image has at most
`bound` bytes a pixel beside the flush that was pending. -/
theorem encodeFrom_length_le {p : Pixel → Prop} {bound : Nat}
    (hown : ∀ e px, p e.prev → p px → (ownChunk e px).2.length ≤ bound) :
    ∀ (pixels : List Pixel) (e : EncoderState), p e.prev → (∀ px ∈ pixels, p px) →
      (encodeFrom e pixels).length ≤ (flushBytes e.run).length + pixels.length * bound
  | [], _, _, _ => Nat.zero_le _
  | px :: rest, e, hprev, hall => by
    obtain ⟨hpx, hrest⟩ := List.forall_mem_cons.1 hall
    have hstep := encodePixel_length_add_flush_le e px rest.isEmpty
    have hchunk := hown e px hprev hpx
    have ih := encodeFrom_length_le hown rest (encodePixel e px rest.isEmpty).1 (by simpa using hpx) hrest
    rw [encodeFrom, List.length_append, List.length_cons, Nat.succ_mul]
    omega

/-- The same for an image from its start, where no flush is pending (R147). -/
theorem encodeImage_length_le {p : Pixel → Prop} {bound : Nat} (hdefault : p defaultPixel)
    (hown : ∀ e px, p e.prev → p px → (ownChunk e px).2.length ≤ bound) {pixels : List Pixel}
    (hall : ∀ px ∈ pixels, p px) : (encodeImage pixels).length ≤ pixels.length * bound :=
  calc (encodeImage pixels).length
    _ ≤ (flushBytes 0).length + pixels.length * bound := encodeFrom_length_le hown pixels freshEncoder hdefault hall
    _ = pixels.length * bound := Nat.zero_add _

/-- An image's last pixel leaves no run pending (R162). -/
theorem encodePrefix_run_eq_zero : ∀ (pixels : List Pixel) (e : EncoderState), pixels ≠ [] →
    (encodePrefix e pixels.length pixels).1.run = 0
  | [], _, h => absurd rfl h
  | [px], e, _ => encodePixel_run_of_last e px
  | _ :: px :: rest, _, _ => encodePrefix_run_eq_zero (px :: rest) _ (List.cons_ne_nil px rest)

/-- The chunk stream of an image has a byte: its last pixel gives one. -/
theorem encodeFrom_ne_nil : ∀ (pixels : List Pixel) (e : EncoderState), pixels ≠ [] → encodeFrom e pixels ≠ []
  | [], _, h => absurd rfl h
  | [px], e, _ => List.append_ne_nil_of_left_ne_nil (encodePixel_output_ne_nil_of_last e px) _
  | _ :: px :: rest, _, _ =>
    List.append_ne_nil_of_right_ne_nil _ (encodeFrom_ne_nil (px :: rest) _ (List.cons_ne_nil px rest))

/-- Settles O19: an own chunk has at most five bytes, and at most four when alpha stays 255 as it is at the start. -/
theorem imageLengthBounds : Obligations.ImageLengthBounds := by
  refine fun pixels hne => ⟨encodePrefix_run_eq_zero pixels freshEncoder hne,
    List.length_pos_of_ne_nil (encodeFrom_ne_nil pixels freshEncoder hne), ?_, fun halpha => ?_⟩
  · refine encodeImage_length_le (p := fun _ => True) trivial (fun e px _ _ => ?_) fun _ _ => trivial
    obtain ⟨-, hle, -⟩ := ownChunk_spec e px
    exact hle
  · refine encodeImage_length_le (p := fun q => q.a = 255) rfl (fun e px hprev hpx => ?_) halpha
    obtain ⟨-, -, hle, -⟩ := ownChunk_spec e px
    exact hle (hpx.trans hprev.symm)

end Sys2Proof.Machine
end

section
/-! PROOFS. A well-formed chunk is read back off the front of a byte list (30_encoding.md R101 to R109). -/

namespace Sys2Proof

open Sys2Proof.Machine

/-- The decoder takes the chunk and leaves what follows it. -/
theorem decodeChunk_chunkBytes {i : Instr} (hwf : i.wf = true) (hchunk : isChunk i = true) (rest : List Byte) :
    decodeChunk (chunkBytes i ++ rest) = .ok (i, rest) := by
  cases i with
  | index i => exact decodeChunk_index i rest
  | diff vr vg vb =>
    simp only [Instr.wf, Bool.and_eq_true] at hwf
    obtain ⟨⟨hr, hg⟩, hb⟩ := hwf
    exact decodeChunk_diff vr vg vb rest hr hg hb
  | luma vg vgr vgb =>
    simp only [Instr.wf, Bool.and_eq_true] at hwf
    obtain ⟨⟨hg, hr⟩, hb⟩ := hwf
    exact decodeChunk_luma vg vgr vgb rest hg hr hb
  | run n => exact decodeChunk_run n rest hwf
  | rgb r g b => exact decodeChunk_rgb r g b rest
  | rgba r g b a => exact decodeChunk_rgba r g b a rest
  | _ => cases hchunk

/-- A well-formed chunk has a first byte (R101). -/
theorem exists_chunkBytes_eq_cons {i : Instr} (hwf : i.wf = true) (hchunk : isChunk i = true) :
    ∃ b bs, chunkBytes i = b :: bs :=
  List.exists_cons_of_ne_nil fun hnil => by simpa [hnil, decodeChunk] using decodeChunk_chunkBytes hwf hchunk []

end Sys2Proof
end

section
/-! PROOFS. The pixels of an image are read back from its chunk stream (R149): the reader keeps the encoder's `prev` and cache,
and is behind by the run that is pending. -/

namespace Sys2Proof.Machine

/-- The reader with these values kept gets exactly these pixels from the bytes, with fuel enough. -/
def Reads (r : ReaderState) (bytes : List Byte) (pixels : List Pixel) : Prop :=
  ∀ fuel, bytes.length ≤ fuel → readStream fuel r bytes = some pixels

/-- What a reader keeps when it has read all that the encoder emitted (R149). -/
def readerOf (e : EncoderState) : ReaderState := { prev := e.prev, cache := e.cache }

/-- A stream of whole chunks that was read to its end. -/
theorem reads_nil (r : ReaderState) : Reads r [] [] := fun _ _ => by simp [readStream]

/-- The reader of an image starts with the values of an encode (R147, R149). -/
theorem readImage_of_reads {bytes : List Byte} {pixels : List Pixel} (h : Reads (readerOf freshEncoder) bytes pixels) :
    readImage bytes = some pixels :=
  h bytes.length (Nat.le_refl _)

/-- One chunk and what follows it. -/
theorem Reads.chunk {r r' : ReaderState} {i : Instr} {own pixels : List Pixel} {bytes : List Byte} (hwf : i.wf = true)
    (hchunk : isChunk i = true) (hread : readChunk r i = (r', own)) (h : Reads r' bytes pixels) :
    Reads r (chunkBytes i ++ bytes) (own ++ pixels) := by
  intro fuel hfuel
  have hdecode := decodeChunk_chunkBytes hwf hchunk bytes
  obtain ⟨b, bs, hbytes⟩ := exists_chunkBytes_eq_cons hwf hchunk
  rw [hbytes, List.cons_append] at hfuel hdecode ⊢
  simp only [List.length_cons, List.length_append] at hfuel
  obtain ⟨fuel, rfl⟩ := Nat.exists_eq_add_one_of_ne_zero (n := fuel) (by omega)
  simp only [readStream, hdecode, hread, h fuel (by omega), Option.map_some]

/-- The flush of a run gives the run's pixels (R163). -/
theorem reads_flushBytes {r : ReaderState} {run : Nat} {bytes : List Byte} {pixels : List Pixel} (hrun : run ≤ 62)
    (h : Reads r bytes pixels) : Reads r (flushBytes run ++ bytes) (List.replicate run r.prev ++ pixels) := by
  rcases Nat.eq_zero_or_pos run with rfl | hpos
  · exact h
  · rw [flushBytes_eq_chunkBytes, if_pos hpos]
    exact .chunk ((inRunRange_iff run).2 ⟨hpos, hrun⟩) rfl rfl h

/-- The own chunk of a pixel gives the pixel, and the reader keeps what the encoder keeps (R149, R182, R183). -/
theorem reads_ownChunk {e : EncoderState} {px : Pixel} {bytes : List Byte} {pixels : List Pixel}
    (h : Reads (readerOf (ownChunk e px).1) bytes pixels) :
    Reads (readerOf e) ((ownChunk e px).2 ++ bytes) (px :: pixels) := by
  by_cases hhit : e.cache[pixelHash px] = px
  · have hread : readChunk (readerOf e) (.index (pixelHash px)) = (readerOf (advance e px false), [px]) := by
      simp [readChunk, readerOf, advance, hhit]
    rw [ownChunk_of_hit hhit] at h ⊢
    exact Reads.chunk (i := .index (pixelHash px)) rfl rfl hread h
  · have hread : readChunk (readerOf e) (missChunk e.prev px) = (readerOf (advance e px true), [px]) :=
      readChunk_missChunk e px
    obtain ⟨hwf, hchunk, -⟩ := missChunk_spec e.prev px
    rw [ownChunk_of_miss hhit] at h ⊢
    exact Reads.chunk hwf hchunk hread h

/-- One pixel step: before it the reader lacks the pending run and the pixel, after it the run then pending. -/
theorem reads_encodePixel {e : EncoderState} {px : Pixel} {isLast : Bool} {bytes : List Byte} {pixels : List Pixel}
    (hrun : e.run ≤ 61)
    (h : Reads (readerOf (encodePixel e px isLast).1) bytes
      (List.replicate (encodePixel e px isLast).1.run px ++ pixels)) :
    Reads (readerOf e) ((encodePixel e px isLast).2 ++ bytes) (List.replicate e.run e.prev ++ px :: pixels) := by
  by_cases heq : px = e.prev
  · have hcount : List.replicate e.run e.prev ++ px :: pixels = List.replicate (e.run + 1) e.prev ++ pixels := by
      rw [heq, List.replicate_succ', List.append_assoc]
      rfl
    rw [hcount]
    rw [encodePixel_of_eq heq] at h ⊢
    by_cases hflush : e.run + 1 = Config.runMax ∨ isLast
    · rw [if_pos hflush] at h ⊢
      exact reads_flushBytes (r := readerOf e) (run := e.run + 1) (by omega) h
    · rw [if_neg hflush, heq] at h
      rw [if_neg hflush]
      exact h
  · obtain ⟨-, -, -, hnone, -⟩ := ownChunk_spec e px
    rw [encodePixel_of_ne heq] at h ⊢
    simp only [hnone, List.replicate_zero, List.nil_append] at h
    rw [List.append_assoc]
    exact reads_flushBytes (by omega) (reads_ownChunk h)

/-- The rest of an image gives the pending run and the rest's pixels; with no pixel to come no run is pending. -/
theorem reads_encodeFrom : ∀ (pixels : List Pixel) (e : EncoderState), e.run ≤ 61 → (pixels = [] → e.run = 0) →
    Reads (readerOf e) (encodeFrom e pixels) (List.replicate e.run e.prev ++ pixels)
  | [], e, _, hend => by
    rw [hend rfl]
    exact reads_nil (readerOf e)
  | px :: rest, e, hrun, _ => by
    have hlast : rest = [] → (encodePixel e px rest.isEmpty).1.run = 0 := by
      rintro rfl
      exact encodePixel_run_of_last e px
    have ih := reads_encodeFrom rest (encodePixel e px rest.isEmpty).1 (encodePixel_run_le e px _ hrun) hlast
    rw [encodePixel_prev] at ih
    exact reads_encodePixel hrun ih

/-- Settles O18: nothing is pending at the start of an image, so the reader gets the pixels. -/
theorem imageIsRecoverable : Obligations.ImageIsRecoverable :=
  fun pixels => readImage_of_reads (reads_encodeFrom pixels freshEncoder (Nat.zero_le _) fun _ => rfl)

end Sys2Proof.Machine
end

section
/-! PROOFS. The run detector (41_run_detector.md): M repetitions give whole RUN 62 chunks and one RUN of the rest (R167), and
what ENCODE-done and RUN n do with a repetition and with a pixel that breaks a run (R160 to R164). -/

namespace Sys2Proof.Machine

/-! ### A sequence of repetitions -/

/-- The flush in the words of R167: nothing, or the byte of RUN n (R105). -/
theorem flushBytes_eq_ite (n : Nat) : flushBytes n = if n = 0 then [] else [0xC0 ||| BitVec.ofNat 8 (n - 1)] := by
  cases n <;> rfl

/-- The chunks of `m` repetitions (R167): as many RUN 62 as are full, then one RUN of the rest. -/
def runChunks (m : Nat) : List Byte := List.replicate (m / 62) 0xFD ++ flushBytes (m % 62)

/-- A run below the cap is its own rest. -/
theorem runChunks_of_le {m : Nat} (h : m ≤ 61) : runChunks m = flushBytes m := by
  rw [runChunks, Nat.div_eq_of_lt (by omega), Nat.mod_eq_of_lt (by omega)]
  rfl

/-- The 62nd repetition completes a RUN 62, and the count begins anew (R161, R168). -/
theorem runChunks_add_runMax (m : Nat) : runChunks (Config.runMax + m) = runByte Config.runMax :: runChunks m := by
  rw [runChunks, Config.runMax, Nat.add_mod_left, Nat.add_div_left m (by decide), List.replicate_succ]
  rfl

/-- A pixel that differs sees a pending run only in the flush before its own chunk (R163). -/
theorem encodeFrom_of_ne {e : EncoderState} {px : Pixel} (h : px ≠ e.prev) (rest : List Pixel) :
    encodeFrom e (px :: rest) = flushBytes e.run ++ encodeFrom { e with run := 0 } (px :: rest) := by
  rw [encodeFrom, encodeFrom, encodePixel_of_ne h, encodePixel_of_ne (e := { e with run := 0 }) h]
  exact List.append_assoc ..

/-- Repetitions before the end of the image, or before a pixel that differs, give the chunks of the pending run and
themselves together; what follows is encoded as with no run pending. A run is never pending with no pixel to come. -/
theorem encodeFrom_replicate_prev_append {tail : List Pixel} (m : Nat) : ∀ e : EncoderState, e.run ≤ 61 →
    tail.head? ≠ some e.prev → (m = 0 → tail = [] → e.run = 0) →
    encodeFrom e (List.replicate m e.prev ++ tail) = runChunks (e.run + m) ++ encodeFrom { e with run := 0 } tail := by
  induction m with
  | zero =>
    intro e hrun hhead hend
    rw [Nat.add_zero, runChunks_of_le hrun]
    cases tail with
    | nil => rw [hend rfl rfl]; rfl
    | cons px rest => exact encodeFrom_of_ne (fun h => hhead (congrArg some h)) rest
  | succ m ih =>
    intro e hrun hhead _
    rw [List.replicate_succ, List.cons_append, encodeFrom, encodePixel_of_eq rfl]
    by_cases hcap : e.run + 1 = Config.runMax
    · have hrest := ih { e with run := 0 } (Nat.zero_le _) hhead fun _ _ => rfl
      have hcount : e.run + (m + 1) = Config.runMax + (0 + m) := by omega
      rw [if_pos (.inl hcap), hcap, hcount, runChunks_add_runMax, hrest]
      rfl
    · have hlt : e.run + 1 ≤ 61 := by
        rw [Config.runMax] at hcap
        omega
      by_cases hlast : (List.replicate m e.prev ++ tail).isEmpty
      · obtain ⟨hnil, rfl⟩ := List.append_eq_nil_iff.1 (List.isEmpty_iff.1 hlast)
        obtain rfl := (List.replicate_eq_nil_iff _).1 hnil
        rw [if_pos (.inr hlast), runChunks_of_le hlt]
        rfl
      · have hrest := ih { e with run := e.run + 1 } hlt hhead fun hm ht => absurd (by simp [hm, ht]) hlast
        rw [if_neg (not_or.2 ⟨hcap, hlast⟩), Nat.add_comm m, ← Nat.add_assoc, ← hrest]
        rfl

/-- Settles O20: with no run pending before them the repetitions alone make the chunks. -/
theorem repetitionsBecomeRunChunks : Obligations.RepetitionsBecomeRunChunks := by
  intro e m hrun hm
  have hfrom {tail : List Pixel} (hhead : tail.head? ≠ some e.prev) :
      encodeFrom e (List.replicate m e.prev ++ tail) = runChunks m ++ encodeFrom e tail := by
    have he : { e with run := 0 } = e := by rw [← hrun]
    have h := encodeFrom_replicate_prev_append m e (by omega) hhead fun _ _ => hrun
    rwa [hrun, Nat.zero_add, he] at h
  rw [← flushBytes_eq_ite]
  refine ⟨?_, fun px rest hne => hfrom fun h => hne (Option.some.inj h)⟩
  have h := hfrom (tail := []) (by simp)
  rwa [encodeFrom, List.append_nil, List.append_nil] at h

/-! ### One pixel step of the block -/

/-- ENCODE-done in ENCODE (R271). -/
theorem exec_encodeDone_of_encode {s : State} (hp : s.phase = .encode) : exec .encodeDone s
    = .next (finishPixel (encodePixel s.enc s.pxL s.lastL).1 (encodePixel s.enc s.pxL s.lastL).2 s) := by
  obtain ⟨-, h⟩ | ⟨hne, -⟩ := exec_encodeDone_cases s
  · exact h
  · exact absurd hp hne

/-- ENCODE-done on a pixel that is no repetition: the flush, then the pixel's own chunk (R163). -/
theorem exec_encodeDone_of_ne {s : State} (hp : s.phase = .encode) (hne : s.pxL ≠ s.enc.prev) : exec .encodeDone s
    = .next (finishPixel (ownChunk s.enc s.pxL).1 (flushBytes s.enc.run ++ (ownChunk s.enc s.pxL).2) s) := by
  rw [exec_encodeDone_of_encode hp, encodePixel_of_ne hne]

/-- ENCODE-done on a repetition at the cap or at the last pixel: one RUN byte with the whole count (R161, R162). -/
theorem exec_encodeDone_of_flush {s : State} (hp : s.phase = .encode) (heq : s.pxL = s.enc.prev)
    (hflush : s.enc.run + 1 = Config.runMax ∨ s.lastL = true) :
    exec .encodeDone s = .next (finishPixel { s.enc with run := 0 } [runByte (s.enc.run + 1)] s) := by
  rw [exec_encodeDone_of_encode hp, encodePixel_of_eq heq, if_pos hflush]

/-- RUN n at the cap or the last pixel is the step of ENCODE-done (R141, R164). -/
theorem exec_run_of_flush {s : State} {n : Nat} (hp : s.phase = .encode) (heq : s.pxL = s.enc.prev)
    (hn : n = s.enc.run + 1) (hflush : n = Config.runMax ∨ s.lastL = true) :
    exec (.run n) s = exec .encodeDone s := by
  rw [exec_encodeDone_of_flush hp heq (hn ▸ hflush), exec, execRun, if_neg (not_not.2 hp), if_pos heq,
    if_pos ⟨hn, hflush⟩, hn]

/-- RUN n on a break is the step of ENCODE-done (R163, log entry 14). -/
theorem exec_run_of_ne {s : State} {n : Nat} (hp : s.phase = .encode) (hne : s.pxL ≠ s.enc.prev)
    (hn : n = s.enc.run) (hpos : 0 < n) : exec (.run n) s = exec .encodeDone s := by
  rw [exec_encodeDone_of_ne hp hne, flushBytes, ← hn, if_pos hpos, exec, execRun, if_neg (not_not.2 hp), if_neg hne,
    if_pos ⟨hn, hpos⟩]
  rfl

/-- A pixel step with output leads to EMIT (R271). -/
theorem finishPixel_of_ne_nil {out : List Byte} (h : out ≠ []) (e : EncoderState) (s : State) : finishPixel e out s =
    { s with enc := e, pos := s.pos + 1, fin := s.lastL, obuf := out, phase := .emit } := by
  rw [finishPixel, if_neg h]

/-- Settles O24: the output of ENCODE-done is the flush and the bytes of the selected chunk. -/
theorem breakFlushesTheRunFirst : Obligations.BreakFlushesTheRunFirst := by
  intro s hp hne _
  obtain ⟨i, hi, hbytes, ⟨hwf, hchunk⟩, hkind⟩ := selectChunk_of_ne hne s.lastL
  obtain ⟨hlen, -, -, hrun, hprev⟩ := ownChunk_spec s.enc s.pxL
  refine ⟨_, i, exec_encodeDone_of_ne hp hne, hi, hwf, hchunk, hkind, ?_, hrun, hprev, ?_⟩
  · rw [finishPixel_obuf, hbytes]
    rfl
  · rw [finishPixel_of_ne_nil (List.append_ne_nil_of_right_ne_nil _ (List.ne_nil_of_length_pos hlen))]

/-- Settles O23: ENCODE-done by the two ways a repetition goes. -/
theorem repetitionCountsOrFlushes : Obligations.RepetitionCountsOrFlushes := by
  refine fun s hp heq _ => ⟨fun hcap hlast => ?_, fun hflush => ?_⟩
  · have hcount : ¬(s.enc.run + 1 = Config.runMax ∨ s.lastL = true) := by simp [Config.runMax, hcap, hlast]
    rw [exec_encodeDone_of_encode hp, encodePixel_of_eq heq, if_neg hcount, finishPixel, hlast]
    rfl
  · have hcount : s.enc.run + 1 = Config.runMax ∨ s.lastL = true := hflush.imp_left (congrArg Nat.succ)
    rw [exec_encodeDone_of_flush hp heq hcount, finishPixel_of_ne_nil (List.cons_ne_nil _ _)]
    rfl

/-- Settles O25: RUN n is the step of ENCODE-done, where its byte is the whole output or the flush that comes first. -/
theorem runChunkCompletes : Obligations.RunChunkCompletes := by
  refine fun s n hp => ⟨?_, fun hne hn hpos => ?_⟩
  · rintro heq rfl hflush
    rw [exec_run_of_flush hp heq rfl hflush, exec_encodeDone_of_flush hp heq hflush,
      finishPixel_of_ne_nil (List.cons_ne_nil _ _)]
    rfl
  · have hdone := exec_encodeDone_of_ne hp hne
    obtain ⟨-, -, -, hrun, hprev⟩ := ownChunk_spec s.enc s.pxL
    refine ⟨_, (exec_run_of_ne hp hne hn hpos).trans hdone, hdone, ?_, hrun, hprev⟩
    rw [finishPixel_obuf, flushBytes, ← hn, if_pos hpos]
    rfl

end Sys2Proof.Machine
end

section
/-! PROOFS. The hash and the INDEX chunk (42_color_cache.md): the hash is a sum mod 64 that may be reduced at any point
(R180), and what INDEX i does with a hit (R182). -/

namespace Sys2Proof.Machine

/-- The hash as a number (R180). -/
theorem val_pixelHash (p : Pixel) :
    (pixelHash p).val = (p.r.toNat * 3 + p.g.toNat * 5 + p.b.toNat * 7 + p.a.toNat * 11) % 64 := rfl

/-- Four channels of at most 255 and weights 3 + 5 + 7 + 11 = 26 bound the sum (R180). -/
theorem hashSum_le (p : Pixel) : p.r.toNat * 3 + p.g.toNat * 5 + p.b.toNat * 7 + p.a.toNat * 11 ≤ 6630 := by
  have hr := p.r.isLt
  have hg := p.g.isLt
  have hb := p.b.isLt
  have ha := p.a.isLt
  omega

/-- Settles O9: congruence mod 64 respects each of the three additions. -/
theorem hashIsSumModuloSixtyFour : Obligations.HashIsSumModuloSixtyFour := by
  refine fun p => ⟨val_pixelHash p, hashSum_le p, fun r g b a rg rgb hr hg hb ha hrg hrgb => ?_⟩
  have hrg' : rg ≡ p.r.toNat * 3 + p.g.toNat * 5 [MOD 64] := Nat.ModEq.trans hrg (Nat.ModEq.add hr hg)
  have hrgb' : rgb ≡ p.r.toNat * 3 + p.g.toNat * 5 + p.b.toNat * 7 [MOD 64] :=
    Nat.ModEq.trans hrgb (Nat.ModEq.add hrg' hb)
  exact (Nat.ModEq.add hrgb' ha).symm

/-- A pixel step with a chunk of its own leads to EMIT with the flush and the chunk (R163, R271). -/
theorem emitOwn_of_ne_nil {own : List Byte} (h : own ≠ []) (stored : Bool) (s : State) : emitOwn stored own s =
    { s with
      enc := advance s.enc s.pxL stored, pos := s.pos + 1, fin := s.lastL, obuf := flushBytes s.enc.run ++ own,
      phase := .emit } :=
  finishPixel_of_ne_nil (List.append_ne_nil_of_right_ne_nil _ h) _ _

/-- INDEX with the slot of a hit emits its byte and stores nothing (R182). -/
theorem exec_index_of_hit {s : State} (hp : s.phase = .encode) (hne : s.pxL ≠ s.enc.prev)
    (hhit : s.enc.cache[pixelHash s.pxL] = s.pxL) :
    exec (.index (pixelHash s.pxL)) s = .next (emitOwn false [indexByte (pixelHash s.pxL)] s) :=
  if_pos ⟨decide_eq_true ⟨hp, hne⟩, decide_eq_true hhit, rfl⟩

/-- Settles O26: the step of a hit, with its one byte after the flush. -/
theorem indexChunkCompletes : Obligations.IndexChunkCompletes := by
  rintro s i hp hne rfl hhit
  rw [exec_index_of_hit hp hne hhit, emitOwn_of_ne_nil (List.cons_ne_nil _ _)]
  rfl

end Sys2Proof.Machine
end

section
/-! PROOFS. The differences and the two chunks made of them (43_diff_luma.md): the width of a luma difference (R202), the
order of the chunks (R205, R111), and what DIFF and LUMA do with a miss (R203, R204). -/

namespace Sys2Proof.Machine

/-! ### The wrapping differences -/

/-- Wrapping is the balanced remainder (R12). -/
theorem s8_eq_bmod (x : Int) : s8 x = x.bmod 256 := by
  rw [s8, Int.bmod]
  split <;> split <;> omega

/-- A difference of two channels is their 8-bit subtraction read as two's complement (R200). -/
theorem delta_eq_toInt_sub (now before : Byte) : delta now before = (now - before).toInt := by
  rw [delta, s8_eq_bmod, BitVec.toInt_sub, BitVec.toInt_eq_toNat_bmod, BitVec.toInt_eq_toNat_bmod, Int.bmod_sub_bmod,
    Int.sub_bmod_bmod]

/-- Wrapping moves nothing into or out of -8..7 at a value that lies less than 256 from both bounds (R202). -/
theorem inLumaRange_s8 {x : Int} (hlow : -248 ≤ x) (hhigh : x ≤ 247) : inLumaRange (s8 x) = inLumaRange x := by
  rw [Bool.eq_iff_iff, inLumaRange_iff, inLumaRange_iff, s8]
  split <;> omega

/-- A field is stored modulo 256, so wrapping before the bias is added makes no difference (R202). -/
theorem ofInt_s8_add (x bias : Int) : BitVec.ofInt 8 (s8 x + bias) = BitVec.ofInt 8 (x + bias) := by
  apply BitVec.eq_of_toInt_eq
  rw [BitVec.toInt_ofInt, BitVec.toInt_ofInt, s8_eq_bmod]
  exact Int.bmod_add_bmod

/-- Settles O11: with green in -32..31 a luma difference lies in -159..159, where wrapping keeps the LUMA test. -/
theorem lumaDifferenceWidthDoesNotMatter : Obligations.LumaDifferenceWidthDoesNotMatter := by
  refine fun v vg hv hv' hg hg' => ⟨by omega, fun hgreen => ?_⟩
  rw [inLumaGreenRange_iff] at hgreen
  exact ⟨inLumaRange_s8 (by omega) (by omega), ofInt_s8_add _ _⟩

/-! ### What the selector never chooses -/

/-- Differences in -2..1 are at most 3 apart (R205). -/
theorem lumaFits_of_diffFits {vr vg vb : Int} (h : diffFits vr vg vb = true) : lumaFits vr vg vb = true := by
  rw [diffFits_iff] at h
  rw [lumaFits_iff]
  omega

/-- The selected chunk by the three ways of a pixel (R141). -/
theorem selectChunk_cases {e : EncoderState} {px : Pixel} {isLast : Bool} {i : Instr}
    (h : selectChunk e px isLast = some i) :
    (px = e.prev ∧ i = .run (e.run + 1))
    ∨ (px ≠ e.prev ∧ e.cache[pixelHash px] = px ∧ i = .index (pixelHash px))
    ∨ (px ≠ e.prev ∧ e.cache[pixelHash px] ≠ px ∧ i = missChunk e.prev px) := by
  by_cases hrep : px = e.prev
  · rw [selectChunk_of_eq hrep, Option.ite_none_right_eq_some] at h
    exact .inl ⟨hrep, (Option.some.inj h.2).symm⟩
  · by_cases hhit : e.cache[pixelHash px] = px
    · rw [selectChunk_of_hit hrep hhit] at h
      exact .inr (.inl ⟨hrep, hhit, (Option.some.inj h).symm⟩)
    · rw [selectChunk_of_miss hrep hhit] at h
      exact .inr (.inr ⟨hrep, hhit, (Option.some.inj h).symm⟩)

/-- The chunk of a miss by its alpha and its differences, the first that fits (R140 step 4). -/
theorem missChunk_cases (prev px : Pixel) {vr vg vb : Int} (hr : delta px.r prev.r = vr) (hg : delta px.g prev.g = vg)
    (hb : delta px.b prev.b = vb) :
    (px.a = prev.a ∧ diffFits vr vg vb = true ∧ missChunk prev px = .diff vr vg vb)
    ∨ (px.a = prev.a ∧ diffFits vr vg vb = false ∧ lumaFits vr vg vb = true
        ∧ missChunk prev px = .luma vg (vr - vg) (vb - vg))
    ∨ (px.a = prev.a ∧ diffFits vr vg vb = false ∧ lumaFits vr vg vb = false
        ∧ missChunk prev px = .rgb px.r px.g px.b)
    ∨ (px.a ≠ prev.a ∧ missChunk prev px = .rgba px.r px.g px.b px.a) := by
  subst hr hg hb
  by_cases ha : px.a = prev.a
  · cases hdiff : diffFits (delta px.r prev.r) (delta px.g prev.g) (delta px.b prev.b)
    · cases hluma : lumaFits (delta px.r prev.r) (delta px.g prev.g) (delta px.b prev.b) <;>
        simp [missChunk, ha, hdiff, hluma]
    · simp [missChunk, ha, hdiff]
  · simp [missChunk, ha]

/-- The LUMA of a miss stands for differences outside the DIFF range (R205). -/
theorem diffFits_of_missChunk_eq_luma {prev px : Pixel} {vg vgr vgb : Int} (h : missChunk prev px = .luma vg vgr vgb) :
    diffFits (vgr + vg) vg (vgb + vg) = false := by
  obtain ⟨-, -, hm⟩ | ⟨-, hdiff, -, hm⟩ | ⟨-, -, -, hm⟩ | ⟨-, hm⟩ :=
    missChunk_cases prev px rfl rfl rfl
  all_goals cases hm.symm.trans h
  rwa [sub_add_cancel, sub_add_cancel]

/-- The RGB of a miss stands for differences that fit neither DIFF nor LUMA (R205). -/
theorem not_fits_of_missChunk_eq_rgb {prev px : Pixel} {r g b : Byte} (h : missChunk prev px = .rgb r g b) :
    diffFits (delta r prev.r) (delta g prev.g) (delta b prev.b) = false
    ∧ lumaFits (delta r prev.r) (delta g prev.g) (delta b prev.b) = false := by
  obtain ⟨-, -, hm⟩ | ⟨-, -, -, hm⟩ | ⟨-, hdiff, hluma, hm⟩ | ⟨-, hm⟩ :=
    missChunk_cases prev px rfl rfl rfl
  all_goals cases hm.symm.trans h
  exact ⟨hdiff, hluma⟩

/-- DIFF 0,0,0 would be the chunk of the pixel before, which is a repetition and no miss (R111). -/
theorem missChunk_ne_diff_zero {prev px : Pixel} (hne : px ≠ prev) : missChunk prev px ≠ .diff 0 0 0 := by
  intro h
  obtain ⟨ha, -, hm⟩ | ⟨-, -, -, hm⟩ | ⟨-, -, -, hm⟩ | ⟨-, hm⟩ := missChunk_cases prev px rfl rfl rfl
  · injection hm.symm.trans h with hr hg hb
    apply hne
    cases px
    cases prev
    exact (Pixel.mk.injEq ..).mpr ⟨eq_of_delta_eq_zero _ _ hr, eq_of_delta_eq_zero _ _ hg, eq_of_delta_eq_zero _ _ hb, ha⟩
  all_goals cases hm.symm.trans h

/-- Settles O16: a repetition gives RUN and a hit INDEX, and the other clauses are about the chunk of a miss. -/
theorem selectorNeverChooses : Obligations.SelectorNeverChooses := by
  refine ⟨fun vr vg vb => lumaFits_of_diffFits, fun e px isLast i hi => ?_⟩
  obtain ⟨hrep, rfl⟩ | ⟨hne, -, rfl⟩ | ⟨hne, hmiss, rfl⟩ := selectChunk_cases hi
  · simp [hrep]
  · simp [hne]
  · obtain ⟨-, -, -, -, halpha, -⟩ := missChunk_spec e.prev px
    exact ⟨fun hrep => absurd hrep hne, fun _ hhit => absurd hhit hmiss, fun ha => (halpha ha).2,
      fun _ _ _ => diffFits_of_missChunk_eq_luma, fun _ _ _ => not_fits_of_missChunk_eq_rgb,
      missChunk_ne_diff_zero hne⟩

/-! ### The DIFF and LUMA steps -/

/-- A miss with alpha as before takes the way of the differences (R183, R201). -/
theorem atDelta_of_miss {s : State} (hp : s.phase = .encode) (hne : s.pxL ≠ s.enc.prev)
    (hmiss : s.enc.cache[pixelHash s.pxL] ≠ s.pxL) (ha : s.pxL.a = s.enc.prev.a) : atDelta s = true := by
  have hbreak : atBreak s = true := decide_eq_true ⟨hp, hne⟩
  have hcache : cacheHit s.enc s.pxL = false := decide_eq_false hmiss
  rw [atDelta, hbreak, hcache, decide_eq_true ha]
  rfl

/-- DIFF with the differences of the pixel, when they fit, emits its byte and stores the pixel (R203). -/
theorem exec_diff_of_fits {s : State} (hd : atDelta s = true) (hfit : diffFits (vrOf s) (vgOf s) (vbOf s) = true) :
    exec (.diff (vrOf s) (vgOf s) (vbOf s)) s = .next (emitOwn true [diffByte (vrOf s) (vgOf s) (vbOf s)] s) :=
  if_pos ⟨hd, rfl, rfl, rfl, hfit⟩

/-- LUMA with the differences of the pixel, when they fit LUMA but not DIFF, emits two bytes and stores the pixel (R204). -/
theorem exec_luma_of_fits {s : State} (hd : atDelta s = true) (hdiff : ¬diffFits (vrOf s) (vgOf s) (vbOf s) = true)
    (hluma : lumaFits (vrOf s) (vgOf s) (vbOf s) = true) :
    exec (.luma (vgOf s) (vrOf s - vgOf s) (vbOf s - vgOf s)) s
      = .next (emitOwn true (lumaBytes (vgOf s) (vrOf s - vgOf s) (vbOf s - vgOf s)) s) :=
  if_pos ⟨hd, rfl, rfl, rfl, hdiff, hluma⟩

/-- Settles O27: the step of a miss that fits DIFF, with its byte as a number. -/
theorem diffChunkCompletes : Obligations.DiffChunkCompletes := by
  intro s vr vg vb hp hne hmiss ha hr hg hb hr' hg' hb'
  obtain rfl : vr = vrOf s := hr.trans (delta_eq_toInt_sub _ _).symm
  obtain rfl : vg = vgOf s := hg.trans (delta_eq_toInt_sub _ _).symm
  obtain rfl : vb = vbOf s := hb.trans (delta_eq_toInt_sub _ _).symm
  have hfit := (diffFits_iff _ _ _).2 ⟨hr', hg', hb'⟩
  rw [exec_diff_of_fits (atDelta_of_miss hp hne hmiss ha) hfit, emitOwn_of_ne_nil (List.cons_ne_nil _ _),
    diffByte_eq_sum _ _ _ hfit]
  rfl

/-- Settles O28: the step of a miss that fits LUMA and not DIFF, with its bytes as numbers. -/
theorem lumaChunkCompletes : Obligations.LumaChunkCompletes := by
  intro s vr vg vb vgr vgb hp hne hmiss ha hr hg hb hgr hgb hdiff hg' hgr' hgb'
  obtain rfl : vr = vrOf s := hr.trans (delta_eq_toInt_sub _ _).symm
  obtain rfl : vg = vgOf s := hg.trans (delta_eq_toInt_sub _ _).symm
  obtain rfl : vb = vbOf s := hb.trans (delta_eq_toInt_sub _ _).symm
  subst hgr hgb
  have hluma := (lumaFits_iff _ _ _).2 ⟨hg', hgr', hgb'⟩
  rw [exec_luma_of_fits (atDelta_of_miss hp hne hmiss ha) (mt (diffFits_iff _ _ _).1 hdiff) hluma,
    lumaBytes_eq_sum _ _ _ hg' hgr' hgb', emitOwn_of_ne_nil (List.cons_ne_nil _ _)]
  rfl

end Sys2Proof.Machine
end

section
/-! PROOFS. The two raw chunks (44_raw_chunks.md): what RGB and RGBA do with a miss (R230, R231), and why three channels never
give RGBA (R232). -/

namespace Sys2Proof.Machine

/-! ### The RGB and RGBA steps -/

/-- RGB with the channels of the pixel, when its differences fit neither DIFF nor LUMA, emits four bytes and stores the
pixel (R230). -/
theorem exec_rgb_of_not_fits {s : State} (hd : atDelta s = true) (hdiff : ¬diffFits (vrOf s) (vgOf s) (vbOf s) = true)
    (hluma : ¬lumaFits (vrOf s) (vgOf s) (vbOf s) = true) :
    exec (.rgb s.pxL.r s.pxL.g s.pxL.b) s = .next (emitOwn true (rgbBytes s.pxL.r s.pxL.g s.pxL.b) s) :=
  if_pos ⟨hd, rfl, rfl, rfl, hdiff, hluma⟩

/-- RGBA with the channels of a miss whose alpha changed emits five bytes and stores the pixel (R231). -/
theorem exec_rgba_of_miss {s : State} (hp : s.phase = .encode) (hne : s.pxL ≠ s.enc.prev)
    (hmiss : s.enc.cache[pixelHash s.pxL] ≠ s.pxL) (ha : s.pxL.a ≠ s.enc.prev.a) :
    exec (.rgba s.pxL.r s.pxL.g s.pxL.b s.pxL.a) s
      = .next (emitOwn true (rgbaBytes s.pxL.r s.pxL.g s.pxL.b s.pxL.a) s) :=
  if_pos ⟨decide_eq_true ⟨hp, hne⟩, mt of_decide_eq_true hmiss, ha, rfl, rfl, rfl, rfl⟩

/-- Settles O29: the step of a miss that fits neither DIFF nor LUMA. -/
theorem rgbChunkCompletes : Obligations.RgbChunkCompletes := by
  intro s vr vg vb hp hne hmiss ha hr hg hb hdiff hluma
  obtain rfl : vr = vrOf s := hr.trans (delta_eq_toInt_sub _ _).symm
  obtain rfl : vg = vgOf s := hg.trans (delta_eq_toInt_sub _ _).symm
  obtain rfl : vb = vbOf s := hb.trans (delta_eq_toInt_sub _ _).symm
  rw [exec_rgb_of_not_fits (atDelta_of_miss hp hne hmiss ha) (mt (diffFits_iff _ _ _).1 hdiff)
    (mt (lumaFits_iff _ _ _).1 hluma), rgbBytes, emitOwn_of_ne_nil (List.cons_ne_nil _ _)]
  rfl

/-- Settles O30: the step of a miss whose alpha changed. -/
theorem rgbaChunkCompletes : Obligations.RgbaChunkCompletes := by
  intro s hp hne hmiss ha
  rw [exec_rgba_of_miss hp hne hmiss ha, rgbaBytes, emitOwn_of_ne_nil (List.cons_ne_nil _ _)]
  rfl

/-! ### Three channels -/

/-- The selected chunk has at most five bytes, and at most four when alpha is as before (R146). -/
theorem selectChunk_length_le {e : EncoderState} {px : Pixel} {isLast : Bool} {i : Instr}
    (h : selectChunk e px isLast = some i) :
    (chunkBytes i).length ≤ 5 ∧ (px.a = e.prev.a → (chunkBytes i).length ≤ 4) := by
  obtain ⟨-, rfl⟩ | ⟨-, -, rfl⟩ | ⟨-, -, rfl⟩ := selectChunk_cases h
  · simp [chunkBytes]
  · simp [chunkBytes]
  · obtain ⟨-, -, -, hfive, hsameAlpha, -⟩ := missChunk_spec e.prev px
    exact ⟨hfive, fun ha => (hsameAlpha ha).1⟩

/-- RGBA is selected only when alpha changed (R201, R231). -/
theorem selectChunk_ne_rgba {e : EncoderState} {px : Pixel} (ha : px.a = e.prev.a) (isLast : Bool) (r g b a : Byte) :
    selectChunk e px isLast ≠ some (.rgba r g b a) := by
  intro h
  obtain ⟨-, -, hrgba, -⟩ := selectorNeverChooses.2 e px isLast _ h
  exact hrgba ha r g b a rfl

/-- Settles O17: by the invariant alpha is 255 in the pixel and in `prev` with three channels, so it did not change. -/
theorem threeChannelsNeverGiveRgba : Obligations.ThreeChannelsNeverGiveRgba := by
  refine fun s h hp => ⟨fun hn => ?_, fun i hi => (selectChunk_length_le hi).1⟩
  obtain ⟨hprev, hpixel⟩ := h.three hn
  have ha : s.pxL.a = s.enc.prev.a := (hpixel hp).trans hprev.symm
  exact ⟨hpixel hp, hprev, selectChunk_ne_rgba ha s.lastL, fun i hi => (selectChunk_length_le hi).2 ha⟩

end Sys2Proof.Machine
end

section
/-! PROOFS. The host interface (45_host_interface.md): the ten register accesses (R251 to R262) and the two internal steps
(R270, R271), each with all that it leaves unchanged. -/

namespace Sys2Proof.Machine

/-! ### DATA_IN (R252, R253) -/

/-- A channel byte goes into the latch that `k` names and changes nothing else (R252). -/
theorem latchByte_spec (v : Byte) (s : State) : latchByte v s =
    { s with
      inr := if s.k = 0 then v else s.inr
      ing := if s.k = 1 then v else s.ing
      inb := if s.k = 2 then v else s.inb } := by
  unfold latchByte
  split <;> simp_all

/-- A byte before the last channel is latched and counted (R252). -/
theorem acceptByte_of_ne {s : State} (h : s.k + 1 ≠ channelCount s.nch) (v : Byte) :
    acceptByte v s = { latchByte v s with k := s.k + 1 } := if_neg h

/-- The byte of the last channel completes the pixel: with three channels it is blue, which has a latch of its own, with
four it is alpha, which has none (R252). -/
theorem acceptByte_of_eq {s : State} (h : s.k + 1 = channelCount s.nch) (v : Byte) : acceptByte v s =
    { s with
      inb := if s.k = 2 then v else s.inb
      pxL := completedPixel v s
      lastL := atLastPixel s
      k := 0
      phase := .encode } := by
  rw [acceptByte, if_pos h, latchPixel, atLastPixel_latchByte, latchByte_spec]
  cases hn : s.nch with
  | three =>
    obtain hk : s.k = 2 := by simpa [hn, channelCount] using h
    simp [completedPixel, hn, hk, alphaOf]
  | four =>
    obtain hk : s.k = 3 := by simpa [hn, channelCount] using h
    simp [completedPixel, hn, hk, alphaOf]

/-- The completed pixel by the channel count (R252). -/
theorem completedPixel_eq_ite (v : Byte) (s : State) : completedPixel v s =
    if s.nch = .three then { r := s.inr, g := s.ing, b := v, a := 255 }
      else { r := s.inr, g := s.ing, b := s.inb, a := v } := by
  unfold completedPixel
  cases s.nch <;> rfl

/-- A byte written to DATA_IN in ACCEPT is a channel byte (R252). -/
theorem exec_wrDataIn_of_accept {s : State} (hp : s.phase = .accept) (v : Byte) :
    exec (.wrDataIn v) s = .next (acceptByte v s) := if_pos hp

/-- A byte written to DATA_IN out of turn is an OVERRUN (R253). -/
theorem exec_wrDataIn_of_ne {s : State} (hp : s.phase ≠ .accept) (v : Byte) :
    exec (.wrDataIn v) s = .next (protocolError codeOverrun s) := if_neg hp

/-- Settles O34: a channel byte by whether it completes the pixel, and the error record. -/
theorem dataInTakesAChannelByte : Obligations.DataInTakesAChannelByte := by
  refine fun s v => ⟨fun hp hk => ?_, fun hp hk => ?_, fun hp => ?_⟩
  · rw [exec_wrDataIn_of_accept hp, acceptByte_of_ne hk, latchByte_spec]
  · rw [exec_wrDataIn_of_accept hp, acceptByte_of_eq hk, completedPixel_eq_ite]
    rfl
  · rw [exec_wrDataIn_of_ne hp, protocolError_spec]
    rfl

/-! ### DATA_OUT (R254, R255) -/

/-- A read of DATA_OUT in EMIT takes the oldest byte (R254). -/
theorem exec_rdDataOut_of_emit {s : State} {v : Byte} {rest : List Byte} (hp : s.phase = .emit)
    (hbuf : s.obuf = v :: rest) : exec .rdDataOut s = .next (popByte v rest s) := by
  simp only [exec, execRdDataOut, hp, hbuf, if_true]

/-- A read of DATA_OUT out of turn gives 0x00 and is an UNDERRUN (R255). -/
theorem exec_rdDataOut_of_ne {s : State} (hp : s.phase ≠ .emit) :
    exec .rdDataOut s = .next (returnByte 0 (protocolError codeUnderrun s)) := if_neg hp

/-- Settles O36: the pop of the oldest byte in EMIT, the error record in any other phase. -/
theorem dataOutPopsTheOldestByte : Obligations.DataOutPopsTheOldestByte := by
  refine fun s => ⟨fun v rest hp hbuf => ?_, fun hp => ?_⟩
  · rw [exec_rdDataOut_of_emit hp hbuf, popByte, hp]
    rfl
  · rw [exec_rdDataOut_of_ne hp, protocolError_spec]
    rfl

/-! ### The accesses without effect (R256) and STATUS (R257) -/

/-- Settles O37: by the meaning of each of the three accesses. -/
theorem ignoredAccessesChangeNothing : Obligations.IgnoredAccessesChangeNothing :=
  fun _ _ => ⟨rfl, rfl, rfl⟩

/-- A status bit stands in bit 0 of its byte. -/
@[simp] theorem getElem_flag (b : Bool) {i : Nat} (hi : i < 8) : (flag b)[i] = (b && decide (i = 0)) := by
  cases b <;> simp [flag]

/-- STATUS bit by bit (R45): the five flags, the two bits of ERRCODE between them, and bit 7. -/
theorem getLsbD_statusByte (s : State) :
    (statusByte s).getLsbD 0 = decide (s.phase = .accept) ∧ (statusByte s).getLsbD 1 = decide (s.phase = .emit)
      ∧ (statusByte s).getLsbD 2 = decide (s.phase = .done) ∧ (statusByte s).getLsbD 3 = s.err
      ∧ (statusByte s).getLsbD 4 = s.errcode.getLsbD 0 ∧ (statusByte s).getLsbD 5 = s.errcode.getLsbD 1
      ∧ (statusByte s).getLsbD 6 = busy s.phase ∧ (statusByte s).getLsbD 7 = false := by
  simp [statusByte]

/-- Settles O38: the byte returned is STATUS, read bit by bit. -/
theorem statusReadsTheState : Obligations.StatusReadsTheState := by
  intro s
  obtain ⟨haccept, hemit, hdone, herr, hcode0, hcode1, hbusy, hseven⟩ := getLsbD_statusByte s
  refine ⟨statusByte s, rfl, haccept, hemit, hdone, herr, BitVec.eq_of_getLsbD_eq fun i hi => ?_, hbusy, hseven⟩
  obtain rfl | rfl : i = 0 ∨ i = 1 := by omega
  · simpa using hcode0
  · simpa using hcode1

/-! ### CTRL (R258, R259, R262) -/

/-- CTRL as it reads is CH4 in bit 1 (R258). -/
theorem ctrlByte_eq_ite (s : State) : ctrlByte s = if s.ch4 then 0x02 else 0x00 := by
  unfold ctrlByte
  cases s.ch4 <;> rfl

/-- Settles O40: the byte returned is CTRL. -/
theorem ctrlReadsChannelBit : Obligations.CtrlReadsChannelBit := by
  intro s
  rw [← ctrlByte_eq_ite]
  rfl

/-- A write to CTRL without bit 0 stores CH4 alone (R259). -/
theorem exec_wrCtrl_of_not_start {v : Byte} (h : v.getLsbD 0 = false) (s : State) :
    exec (.wrCtrl v) s = .next { s with ch4 := v.getLsbD 1 } := if_neg (Bool.eq_false_iff.1 h)

/-- A write to CTRL with bit 0 performs START with the new CH4 (R259, R262). -/
theorem exec_wrCtrl_of_start {v : Byte} (h : v.getLsbD 0 = true) (s : State) :
    exec (.wrCtrl v) s = .next (start { s with ch4 := v.getLsbD 1 }) := if_pos h

/-- Settles O41: a write to CTRL by bit 0. -/
theorem ctrlWriteStartsAnEncode : Obligations.CtrlWriteStartsAnEncode :=
  fun s _ => ⟨fun h => exec_wrCtrl_of_not_start h s, fun h => exec_wrCtrl_of_start h s⟩

/-! ### COUNT (R260) -/

/-- A byte of COUNT as a number (R76). -/
theorem toNat_countByte (c : Word32) (j : Fin 4) : (countByte c j).toNat = c.toNat / 256 ^ j.val % 256 := by
  simp [countByte, Nat.shiftRight_eq_div_pow, Nat.pow_mul]

/-- The mask of a byte of COUNT before it is shifted into place: the low eight bits. -/
theorem getLsbD_lowByteMask (n : Nat) : (0xFF#32).getLsbD n = decide (n < 8) := by
  rw [show (0xFF#32) = (BitVec.allOnes 8).setWidth 32 from rfl, BitVec.getLsbD_setWidth, BitVec.getLsbD_allOnes,
    ← Bool.decide_and, decide_eq_decide]
  omega

/-- Bit i of byte j' of COUNT after a write to byte j: the byte written lies in its own place, and below and above it nothing
changes (R260). -/
theorem getLsbD_withCountByte (c : Word32) (j j' : Fin 4) (v : Byte) {i : Nat} (hi : i < 8) :
    (withCountByte c j v).getLsbD (8 * j'.val + i) = if j' = j then v.getLsbD i else c.getLsbD (8 * j'.val + i) := by
  have hbit : 8 * j'.val + i < 32 := by omega
  simp only [withCountByte, BitVec.getLsbD_or, BitVec.getLsbD_and, BitVec.getLsbD_not, BitVec.getLsbD_shiftLeft,
    getLsbD_lowByteMask, BitVec.getLsbD_setWidth, hbit]
  by_cases h : j' = j
  · have hword : i < 32 := by omega
    simp [h, hi, hword]
  · rw [if_neg h]
    obtain hlt | hlt := Nat.lt_or_gt_of_ne (Fin.val_ne_of_ne h)
    · have hbelow : 8 * j'.val + i < 8 * j.val := by omega
      simp [hbelow]
    · have habove : 8 ≤ 8 * j'.val + i - 8 * j.val := by omega
      simp [Nat.not_lt.2 habove, BitVec.getLsbD_of_ge v _ habove]

/-- The byte of COUNT just written is the byte written (R260). -/
theorem countByte_withCountByte_same (c : Word32) (j : Fin 4) (v : Byte) : countByte (withCountByte c j v) j = v :=
  BitVec.eq_of_getLsbD_eq fun i hi => by simp [countByte, getLsbD_withCountByte c j j v hi, hi]

/-- A write to one byte of COUNT leaves the others (R260). -/
theorem countByte_withCountByte_of_ne (c : Word32) {j j' : Fin 4} (h : j' ≠ j) (v : Byte) :
    countByte (withCountByte c j v) j' = countByte c j' :=
  BitVec.eq_of_getLsbD_eq fun i hi => by simp [countByte, getLsbD_withCountByte c j j' v hi, h]

/-- Settles O42: the bytes of COUNT after a write, as numbers. -/
theorem countBytesReadBack : Obligations.CountBytesReadBack := by
  refine fun s j v => ⟨⟨withCountByte s.count j v, rfl, ?_, fun j' hne => ?_⟩, countByte s.count j, rfl, ?_⟩
  · rw [← toNat_countByte, countByte_withCountByte_same]
  · rw [← toNat_countByte, ← toNat_countByte, countByte_withCountByte_of_ne _ hne]
  · exact toNat_countByte _ _

/-! ### The internal steps (R270, R271) -/

/-- Settles O33: every slot of the cleared cache is zero. -/
theorem clearDoneZeroesTheCache : Obligations.ClearDoneZeroesTheCache :=
  fun _ hp => ⟨clearedCache, getElem_clearedCache, if_pos hp⟩

/-- Settles O22: the end of the pixel step with what EncodePixel gives. -/
theorem encodeDoneAppliesEncodePixel : Obligations.EncodeDoneAppliesEncodePixel := by
  intro s e out hp hstep
  rw [exec_encodeDone_of_encode hp, hstep, finishPixel, ← ite_not]
  rfl

end Sys2Proof.Machine
end

section
/-! PROOFS. The host-side framing (46_stream_framing.md): which descriptors are valid (R300) and how large they are (R301), the
14 header bytes (R304), and the stream of a valid descriptor with its length (R308, R310). -/

namespace Sys2Proof.Machine

/-! ### Valid descriptors (R300, R301) -/

/-- R300 as a statement. -/
theorem validDescriptor_iff (maxPixels : Config.MaxPixels) (d : Descriptor) : validDescriptor maxPixels d = true ↔
    d.width ≠ 0 ∧ d.height ≠ 0 ∧ (d.channels = 3 ∨ d.channels = 4) ∧ (d.colorspace = 0 ∨ d.colorspace = 1)
      ∧ d.width * d.height ≤ maxPixels.val :=
  decide_eq_true_iff

/-- The bound of MAX_PIXELS as a numeral (R301). -/
theorem maxPixels_le (maxPixels : Config.MaxPixels) : maxPixels.val ≤ 858993454 := maxPixels.property.2

/-- A valid descriptor's image has no more pixels than the largest MAX_PIXELS (R301). -/
theorem pixelCount_le_ceiling {maxPixels : Config.MaxPixels} {d : Descriptor} (h : validDescriptor maxPixels d = true) :
    d.width * d.height ≤ 858993454 := by
  obtain ⟨-, -, -, -, hcount⟩ := (validDescriptor_iff maxPixels d).1 h
  exact hcount.trans (maxPixels_le maxPixels)

/-- A valid descriptor has a pixel. -/
theorem pixelCount_pos {maxPixels : Config.MaxPixels} {d : Descriptor} (h : validDescriptor maxPixels d = true) :
    0 < d.width * d.height := by
  obtain ⟨hwidth, hheight, -⟩ := (validDescriptor_iff maxPixels d).1 h
  exact Nat.mul_pos (Nat.pos_of_ne_zero hwidth) (Nat.pos_of_ne_zero hheight)

/-- The host sets the block to the channel count of a valid descriptor (R307). -/
theorem channelCount_channelsOf_ch4 {maxPixels : Config.MaxPixels} {d : Descriptor}
    (h : validDescriptor maxPixels d = true) : channelCount (channelsOf d.ch4) = d.channels := by
  obtain ⟨-, -, hchannels, -⟩ := (validDescriptor_iff maxPixels d).1 h
  rcases hchannels with h3 | h4
  · simp [Descriptor.ch4, channelsOf, channelCount, h3]
  · simp [Descriptor.ch4, channelsOf, channelCount, h4]

/-- R302 in the words of R310. -/
theorem bufferSize_eq (d : Descriptor) : bufferSize d = d.width * d.height * (d.channels + 1) + 22 := rfl

/-- The host stops with InvalidDescriptor for exactly the descriptors R300 refuses, whether or not it got a buffer. -/
theorem assembleStream_eq_invalidDescriptor_iff (maxPixels : Config.MaxPixels) (allocated : Bool) (d : Descriptor)
    (buffer : List Byte) :
    assembleStream maxPixels allocated d buffer = .error .invalidDescriptor ↔ validDescriptor maxPixels d ≠ true := by
  obtain ⟨hvalid, hcheck⟩ | ⟨hvalid, -, hcheck⟩ | ⟨hvalid, -, hcheck⟩ := checkRequest_cases maxPixels allocated d
  all_goals simp [assembleStream, hcheck, hvalid]

/-- Settles O57: the conditions are those of R300 negated, and five bytes a pixel are the most a valid descriptor takes. -/
theorem descriptorValidation : Obligations.DescriptorValidation := by
  refine fun maxPixels allocated d buffer => ⟨?_, ?_, fun hvalid => ?_⟩
  · rw [assembleStream_eq_invalidDescriptor_iff, ne_eq, validDescriptor_iff]
    simp only [not_and_or, not_not, not_le]
  · have hceiling := maxPixels_le maxPixels
    omega
  · have hcount := pixelCount_le_ceiling hvalid
    obtain ⟨-, -, hchannels, -⟩ := (validDescriptor_iff maxPixels d).1 hvalid
    have hsize : d.width * d.height * (d.channels + 1) ≤ d.width * d.height * 5 := Nat.mul_le_mul_left _ (by omega)
    rw [bufferSize_eq]
    omega

/-! ### The header (R304) -/

/-- The four bytes `MemWrite` stores of a 32-bit number have the number as their big-endian value (R304, R306). -/
theorem bigEndian4_value {v : Nat} (h : v < 2 ^ 32) : ∃ b3 b2 b1 b0 : Byte, bigEndian4 v = [b3, b2, b1, b0]
    ∧ ((b3.toNat * 256 + b2.toNat) * 256 + b1.toNat) * 256 + b0.toNat = v := by
  refine ⟨_, _, _, _, rfl, ?_⟩
  simp only [BitVec.toNat_ofNat]
  omega

/-- Settles O58: width and height are at most the pixel count, so each fits its four bytes. -/
theorem headerHoldsTheDescriptor : Obligations.HeaderHoldsTheDescriptor := by
  intro maxPixels d hvalid
  have hcount := pixelCount_le_ceiling hvalid
  obtain ⟨hwidth, hheight, hchannels, hspace, -⟩ := (validDescriptor_iff maxPixels d).1 hvalid
  have hwle : d.width ≤ d.width * d.height := Nat.le_mul_of_pos_right _ (Nat.pos_of_ne_zero hheight)
  have hhle : d.height ≤ d.width * d.height := Nat.le_mul_of_pos_left _ (Nat.pos_of_ne_zero hwidth)
  obtain ⟨w3, w2, w1, w0, hw, hwval⟩ := bigEndian4_value (v := d.width) (by omega)
  obtain ⟨h3, h2, h1, h0, hh, hhval⟩ := bigEndian4_value (v := d.height) (by omega)
  refine ⟨w3, w2, w1, w0, h3, h2, h1, h0, BitVec.ofNat 8 d.channels, BitVec.ofNat 8 d.colorspace, ?_, hwval, hhval, ?_, ?_⟩
  · rw [header, hw, hh]
    rfl
  · exact Nat.mod_eq_of_lt (by omega)
  · exact Nat.mod_eq_of_lt (by omega)

/-! ### The stream of a valid descriptor (R307 to R310) -/

/-- The host frames the image's chunks when the descriptor is valid and there is a buffer for them. -/
theorem assembleStream_of_valid {maxPixels : Config.MaxPixels} {d : Descriptor} (h : validDescriptor maxPixels d = true)
    (buffer : List Byte) :
    assembleStream maxPixels true d buffer = .ok (frameStream d (encodeImage (imagePixels d buffer))) := by
  simp [assembleStream, checkRequest, h]

/-- The stream is longer than its chunks by header and end marker (R302, R309). -/
theorem frameStream_snd (d : Descriptor) (chunks : List Byte) : (frameStream d chunks).2 = chunks.length + 22 :=
  congrArg (· + 8) (Nat.add_comm 14 chunks.length)

/-- The first four bytes of the stream (R304). -/
theorem frameStream_take_magic (d : Descriptor) (chunks : List Byte) :
    (frameStream d chunks).1.take 4 = [0x71, 0x6F, 0x69, 0x66] := rfl

/-- The last eight bytes of the stream (R308). -/
theorem frameStream_drop_endMarker (d : Descriptor) (chunks : List Byte) :
    (frameStream d chunks).1.drop ((frameStream d chunks).2 - 8) = [0, 0, 0, 0, 0, 0, 0, 1] :=
  List.drop_left' (by rw [frameStream_snd, List.length_append, Nat.add_comm]; rfl)

/-- A channel buffer of the image's size gives all the image's pixels, with three channels each of alpha 255, and their
channel bytes in order are the buffer (R307). -/
theorem imagePixels_spec {maxPixels : Config.MaxPixels} {d : Descriptor} (h : validDescriptor maxPixels d = true)
    {buffer : List Byte} (hbuffer : buffer.length = d.width * d.height * d.channels) :
    (imagePixels d buffer).length = d.width * d.height
      ∧ (d.channels = 3 → ∀ p ∈ imagePixels d buffer, p.a = 255)
      ∧ (imagePixels d buffer).flatMap (channelBytes (channelsOf d.ch4)) = buffer := by
  rw [← channelCount_channelsOf_ch4 h] at hbuffer
  obtain ⟨hlength, halpha, hbytes⟩ := pixelsOf_spec _ _ buffer hbuffer
  have hall : imagePixels d buffer = pixelsOf (channelsOf d.ch4) buffer := List.take_of_length_le hlength.le
  rw [hall]
  exact ⟨hlength, fun h3 => halpha (by simp [Descriptor.ch4, channelsOf, h3]), hbytes⟩

/-- An image's chunks are at least one byte, and at most one byte a pixel more than its channel bytes (R148, R310). -/
theorem encodeImage_imagePixels_length {maxPixels : Config.MaxPixels} {d : Descriptor}
    (h : validDescriptor maxPixels d = true) {buffer : List Byte}
    (hbuffer : buffer.length = d.width * d.height * d.channels) :
    1 ≤ (encodeImage (imagePixels d buffer)).length
      ∧ (encodeImage (imagePixels d buffer)).length ≤ d.width * d.height * (d.channels + 1) := by
  obtain ⟨hlength, halpha, -⟩ := imagePixels_spec h hbuffer
  have hne : imagePixels d buffer ≠ [] := List.ne_nil_of_length_pos (hlength ▸ pixelCount_pos h)
  obtain ⟨-, hpos, hfive, hfour⟩ := imageLengthBounds (imagePixels d buffer) hne
  obtain ⟨-, -, hchannels, -⟩ := (validDescriptor_iff maxPixels d).1 h
  rw [hlength] at hfive hfour
  refine ⟨hpos, ?_⟩
  rcases hchannels with h3 | h4
  · simpa only [h3] using hfour (halpha h3)
  · simpa only [h4] using hfive

/-- Up to 62 default pixels are one RUN, so one byte (R161, R167): the lower bound of R310 is met. -/
theorem encodeImage_replicate_default_length {m : Nat} (hpos : 1 ≤ m) (hle : m ≤ 62) :
    (encodeImage (List.replicate m defaultPixel)).length = 1 := by
  obtain ⟨hchunks, -⟩ := repetitionsBecomeRunChunks freshEncoder m rfl hpos
  refine (congrArg List.length hchunks).trans ?_
  by_cases hfull : m = 62
  · rw [hfull]
    rfl
  · rw [Nat.div_eq_of_lt (by omega), Nat.mod_eq_of_lt (by omega), if_neg (by omega)]
    rfl

/-- Settles O59: the stream is 22 bytes longer than the image's chunks. -/
theorem streamLengthBounds : Obligations.StreamLengthBounds := by
  refine ⟨fun m => encodeImage_replicate_default_length, fun maxPixels d buffer hvalid hbuffer => ?_⟩
  obtain ⟨hpos, hle⟩ := encodeImage_imagePixels_length hvalid hbuffer
  refine ⟨(frameStream d (encodeImage (imagePixels d buffer))).1, (frameStream d (encodeImage (imagePixels d buffer))).2,
    assembleStream_of_valid hvalid buffer, frameStream_length _ _, ?_, ?_, bufferSize_eq d, frameStream_take_magic _ _,
    frameStream_drop_endMarker _ _⟩
  · rw [frameStream_snd]
    exact Nat.add_le_add_right hpos 22
  · rw [frameStream_snd]
    exact Nat.add_le_add_right hle 22

end Sys2Proof.Machine
end

section
/-! PROOFS. Resets (70_reset_and_hazards.md): the values hardware reset gives the state's items (R360), and the start state of
EncodePixel after START and CLEAR-done (R362). -/

namespace Sys2Proof.Machine

/-- Settles O43: a step on hardware reset goes to `State.reset` but for the events to come. -/
theorem hardwareResetValues : Obligations.HardwareResetValues := by
  intro s rest h
  refine ⟨hardwareReset { s with inputs := rest }, step_of_reset h, ?_⟩
  simp [State.reset, defaultPixel]

/-- CLEAR-done in its phase clears the cache (R270). -/
theorem exec_clearDone_of_clear {s : State} (hp : s.phase = .clear) : exec .clearDone s = .next (clearCache s) := if_pos hp

/-- START sets `prev` and `run` (R262) and CLEAR-done the cache (R270), which is all of the core state. -/
theorem clearCache_start_enc (s : State) : (clearCache (start s)).enc = freshEncoder := rfl

/-- Settles O50: the core state after START and CLEAR-done is the fresh encoder. -/
theorem startResetsTheEncoder : Obligations.StartResetsTheEncoder := by
  intro s v hstart
  refine ⟨_, _, exec_wrCtrl_of_start hstart s, exec_clearDone_of_clear (start_phase _), ?_⟩
  rw [clearCache_start_enc]
  exact ⟨rfl, rfl, getElem_clearedCache⟩

end Sys2Proof.Machine
end

section
/-! PROOFS. The decoder as the inverse of the encoder (30_encoding.md R101 to R109, 10_state.md R42), and the chunks written
out in 30_encoding.md section 2. -/

namespace Sys2Proof

open Sys2Proof.Machine

/-! ### Decoding what was encoded -/

/-- The bytes of a well-formed chunk are exactly one chunk. -/
theorem decodeOneChunk_chunkBytes {i : Instr} (hwf : i.wf = true) (hchunk : isChunk i = true) :
    decodeOneChunk (chunkBytes i) = .ok i := by
  have h := decodeChunk_chunkBytes hwf hchunk []
  rw [List.append_nil] at h
  rw [decodeOneChunk, h]

/-- The event of a chunk is its bytes. -/
theorem encode_of_isChunk {i : Instr} (hchunk : isChunk i = true) : encode i = .chunk (chunkBytes i) := by
  cases i with
  | index | diff | luma | run | rgb | rgba => rfl
  | _ => cases hchunk

/-- The read of byte j of COUNT (R42). -/
theorem decode_readEvent_count (p : Phase) (j : Fin 4) : decode p (readEvent (4 + j.val)) = .ok (.rdCount j) := by
  rw [decode_readEvent p _ (by omega), decodeRead_count]

/-- The write of byte j of COUNT (R42). -/
theorem decode_writeEvent_count (p : Phase) (j : Fin 4) (v : Byte) :
    decode p (writeEvent (4 + j.val) v) = .ok (.wrCount j v) := by
  rw [decode_writeEvent p _ v (by omega), decodeWrite_count]

/-- Settles O5: a chunk is read back from its bytes, a register access from its offset and direction, and an internal step
from the phase that enables it. -/
theorem decodeOfEncodeIsIdentity : Obligations.DecodeOfEncodeIsIdentity := by
  intro i p hwf hp
  by_cases hchunk : isChunk i = true
  · rw [encode_of_isChunk hchunk]
    exact decodeOneChunk_chunkBytes hwf hchunk
  · cases i with
    | index | diff | luma | run | rgb | rgba => exact absurd rfl hchunk
    | rdCount j => exact decode_readEvent_count p j
    | wrCount j v => exact decode_writeEvent_count p j v
    | clearDone =>
      obtain rfl : p = .clear := of_decide_eq_true hp
      rfl
    | encodeDone =>
      obtain rfl : p = .encode := of_decide_eq_true hp
      rfl
    | _ => rfl

/-- Settles O4: each offset of the window with each direction. -/
theorem windowOffsetsSelectRegisters : Obligations.WindowOffsetsSelectRegisters :=
  fun p v => ⟨rfl, rfl, rfl, rfl, rfl, rfl, rfl, rfl,
    fun j => ⟨decode_readEvent_count p j, decode_writeEvent_count p j v⟩⟩

/-- Settles O8: the decoder run on the seven words. -/
theorem writtenOutWordsDecode : Obligations.WrittenOutWordsDecode := by
  unfold Obligations.WrittenOutWordsDecode
  decide

/-! ### Encoding what was decoded -/

/-- A chunk taken off the front of a list: it is well formed, and its bytes and the rest are the list. -/
def ReadsBack (bytes : List Byte) (i : Instr) (rest : List Byte) : Prop :=
  i.wf = true ∧ isChunk i = true ∧ chunkBytes i ++ rest = bytes

/-- The decoder takes no other chunk off a list than one whose bytes begin it. -/
theorem ReadsBack.of_decode {bytes rest rest' : List Byte} {i j : Instr} (hj : ReadsBack bytes j rest')
    (h : decodeChunk bytes = .ok (i, rest)) : ReadsBack bytes i rest := by
  obtain ⟨hwf, hchunk, rfl⟩ := hj
  cases (decodeChunk_chunkBytes hwf hchunk rest').symm.trans h
  exact ⟨hwf, hchunk, rfl⟩

/-- Nothing is read from fewer bytes than the first byte asks for (R109). -/
theorem TakesExactly.ne_ok {len : Nat} {byte0 : Byte} {tail : List Byte} (ht : TakesExactly len byte0 tail)
    (hlen : tail.length + 1 < len) (r : Instr × List Byte) : decodeChunk (byte0 :: tail) ≠ .ok r := by
  rw [ht.2 hlen]
  exact nofun

/-- First byte 0xFF (R107). -/
theorem readsBack_rgba {rest : List Byte} {i : Instr} : ∀ tail, decodeChunk (Config.tagRgba :: tail) = .ok (i, rest) →
    ReadsBack (Config.tagRgba :: tail) i rest
  | r :: g :: b :: a :: _, h => .of_decode (j := .rgba r g b a) ⟨rfl, rfl, rfl⟩ h
  | [], h | [_], h | [_, _], h | [_, _, _], h => absurd h ((takesExactly_rgba _).ne_ok (by simp) _)

/-- First byte 0xFE (R106). -/
theorem readsBack_rgb {rest : List Byte} {i : Instr} : ∀ tail, decodeChunk (Config.tagRgb :: tail) = .ok (i, rest) →
    ReadsBack (Config.tagRgb :: tail) i rest
  | r :: g :: b :: _, h => .of_decode (j := .rgb r g b) ⟨rfl, rfl, rfl⟩ h
  | [], h | [_], h | [_, _], h => absurd h ((takesExactly_rgb _).ne_ok (by simp) _)

/-- The DIFF of a byte's fields is well formed (R103, R108). -/
theorem wf_diff_of_bits (b : Byte) : (Instr.diff (bits b 5 4 - 2) (bits b 3 2 - 2) (bits b 1 0 - 2)).wf = true := by
  have hred : bits b 5 4 < 4 := bits_lt b 5 4
  have hgreen : bits b 3 2 < 4 := bits_lt b 3 2
  have hblue : bits b 1 0 < 4 := bits_lt b 1 0
  simp only [Instr.wf, Bool.and_eq_true, inDiffRange_iff]
  omega

/-- The LUMA of two bytes' fields is well formed (R104, R108). -/
theorem wf_luma_of_bits (b c : Byte) : (Instr.luma (bits b 5 0 - 32) (bits c 7 4 - 8) (bits c 3 0 - 8)).wf = true := by
  have hgreen : bits b 5 0 < 64 := bits_lt b 5 0
  have hhigh : bits c 7 4 < 16 := bits_lt c 7 4
  have hlow : bits c 3 0 < 16 := bits_lt c 3 0
  simp only [Instr.wf, Bool.and_eq_true, inLumaGreenRange_iff, inLumaRange_iff]
  omega

/-- Tag bits 10 (R104): both bytes are built back from their fields. -/
theorem readsBack_luma {byte0 : Byte} {rest : List Byte} {i : Instr} (hrgba : byte0 ≠ Config.tagRgba)
    (hrgb : byte0 ≠ Config.tagRgb) (htag : bits byte0 7 6 = 2) (hbyte : lumaByte0 (bits byte0 5 0 - 32) = byte0) :
    ∀ tail, decodeChunk (byte0 :: tail) = .ok (i, rest) → ReadsBack (byte0 :: tail) i rest
  | [], h => absurd h ((takesExactly_luma hrgba hrgb htag _).ne_ok (by simp) _)
  | byte1 :: rest', h =>
    have hbytes : chunkBytes (.luma (bits byte0 5 0 - 32) (bits byte1 7 4 - 8) (bits byte1 3 0 - 8)) = [byte0, byte1] := by
      rw [chunkBytes, lumaBytes_eq, hbyte, lumaByte1_of_bits]
    .of_decode ⟨wf_luma_of_bits byte0 byte1, rfl, congrArg (· ++ rest') hbytes⟩ h

/-- Settles O6: by the kind of the first byte, which is built back from its fields. -/
theorem encodeOfDecodedChunkIsIdentity : Obligations.EncodeOfDecodedChunkIsIdentity := by
  rintro (_ | ⟨byte0, tail⟩) i rest h
  · cases h
  by_cases hrgba : byte0 = Config.tagRgba
  · subst hrgba
    exact readsBack_rgba tail h
  by_cases hrgb : byte0 = Config.tagRgb
  · subst hrgb
    exact readsBack_rgb tail h
  obtain ⟨-, hbyte⟩ | ⟨-, hbyte⟩ | ⟨htag, hbyte⟩ | ⟨-, hbyte, hle⟩ := byte_is_one_kind byte0 hrgba hrgb
  · exact ReadsBack.of_decode (j := .index _) ⟨rfl, rfl, congrArg (· :: tail) hbyte⟩ h
  · exact ReadsBack.of_decode ⟨wf_diff_of_bits byte0, rfl, congrArg (· :: tail) hbyte⟩ h
  · exact readsBack_luma hrgba hrgb htag hbyte tail h
  · have hwf := (inRunRange_iff _).2 ⟨Nat.le_add_left 1 (bits byte0 5 0), hle⟩
    exact ReadsBack.of_decode (j := .run _) ⟨hwf, rfl, congrArg (· :: tail) hbyte⟩ h

end Sys2Proof
end

section
/-! PROOFS. A step by its next event (45_host_interface.md): the operation it decodes to (R250), the wait (R272), and the
accesses that are refused (20_memory.md R71, R72, 45_host_interface.md R274). -/

namespace Sys2Proof.Machine

/-- A step on an event that decodes runs its operation (R250). -/
theorem step_of_decode {s : State} {e : Event} {rest : List Event} {i : Instr} (h : s.inputs = e :: rest)
    (hd : decode s.phase e = .ok i) : step s = exec i { s with inputs := rest } := by
  simp [step, fetch, fetchEvent, h, hd]

/-- A step with no event to come runs the internal step the phase enables (R270, R271). -/
theorem step_of_nil {s : State} {i : Instr} (h : s.inputs = []) (hd : decodeInternal s.phase = .ok i) :
    step s = exec i s := by
  simp [step, fetch, fetchEvent, h, decode, hd]

/-- Settles O1: the operation the event decodes to, or the internal step. -/
theorem stepRunsDecodedOperation : Obligations.StepRunsDecodedOperation :=
  ⟨fun _ _ _ _ => step_of_decode, fun _ h hp => step_of_nil h (by rw [hp]; rfl),
    fun _ h hp => step_of_nil h (by rw [hp]; rfl)⟩

/-- In the four waiting phases no internal step is enabled (R272). -/
theorem decodeInternal_of_waiting {p : Phase} (hp : p = .idle ∨ p = .accept ∨ p = .emit ∨ p = .done) :
    decodeInternal p = .error .noStepEnabled := by
  obtain rfl | rfl | rfl | rfl := hp <;> rfl

/-- Settles O2: the block's turn is a wait. -/
theorem blockWaitsForTheHost : Obligations.BlockWaitsForTheHost := by
  intro s hp
  have hwait := decodeInternal_of_waiting hp
  exact ⟨fun h => by simp [step, fetch, fetchEvent, h, decode, hwait],
    fun rest h => by simp [step, fetch, fetchEvent, h, decode, hwait]⟩

/-- A step on an event the decoder rejects is refused, unless the event is a wait or hardware reset (R72, R274, U10). -/
theorem step_of_undecodable {s : State} {e : Event} {rest : List Event} {err : DecodeError} (h : s.inputs = e :: rest)
    (hd : decode s.phase e = .error err) (hwait : err ≠ .noStepEnabled) (hreset : err ≠ .hardwareReset) :
    step s = .refused (.undecodable err) := by
  simp [step, fetch, fetchEvent, h, hd]

/-- An access the spec does not define is rejected for its width, its offset or its direction (R71, R72, R274). -/
theorem decodeAccess_of_undefined {a : Access} (h : a.width ≠ 1 ∨ 8 ≤ a.offset ∨ a.dir = .readWrite) :
    decodeAccess a = .error .notOneByte ∨ decodeAccess a = .error .outsideWindow
      ∨ decodeAccess a = .error .readAndWrite := by
  by_cases hwidth : a.width = 1
  · by_cases hoffset : 8 ≤ a.offset
    · exact .inr (.inl (by simp [decodeAccess, hwidth, hoffset]))
    · have hdir := (h.resolve_left (not_not.2 hwidth)).resolve_left hoffset
      exact .inr (.inr (by simp [decodeAccess, hwidth, hoffset, hdir]))
  · exact .inl (by simp [decodeAccess, hwidth])

/-- Settles O3: the reason the decoder gives is neither a wait nor hardware reset. -/
theorem undefinedAccessesAreRefused : Obligations.UndefinedAccessesAreRefused := by
  refine fun s a rest => ⟨fun h hundefined => ?_, fun h => ?_⟩
  · obtain herr | herr | herr := decodeAccess_of_undefined hundefined
    all_goals exact ⟨_, step_of_undecodable h herr (by decide) (by decide)⟩
  · exact ⟨_, step_of_undecodable (err := .accessInReset) h rfl (by decide) (by decide)⟩

end Sys2Proof.Machine
end

section
/-! PROOFS. The pixel step (40_pixel_operation.md, 42_color_cache.md, 43_diff_luma.md): its output and its run counter (R146,
R148, R31), the difference of two channels (R200), and the pixel that comes back (R187). -/

namespace Sys2Proof.Machine

/-- Settles O10: by the difference as a two's complement number. -/
theorem deltaIsWrappingSignedDifference : Obligations.DeltaIsWrappingSignedDifference :=
  ⟨delta_eq_toInt_sub, rfl, rfl⟩

/-- A pixel with alpha as before emits at most a flush of one byte and four bytes of its own (R146). -/
theorem encodePixel_length_le_of_alpha {e : EncoderState} {px : Pixel} (ha : px.a = e.prev.a) (isLast : Bool) :
    (encodePixel e px isLast).2.length ≤ 5 := by
  by_cases h : px = e.prev
  · rw [encodePixel_output_of_eq h]
    split <;> simp
  · have hflush := flushBytes_length e.run
    obtain ⟨-, -, hown, -⟩ := ownChunk_spec e px
    rw [encodePixel_of_ne h, List.length_append]
    exact Nat.add_le_add hflush (hown ha)

/-- Settles O14: each bound is a law of the pixel step. -/
theorem pixelOutputAndRunBounds : Obligations.PixelOutputAndRunBounds := by
  refine fun e px isLast hrun => ⟨encodePixel_length_le e px isLast, fun ha => encodePixel_length_le_of_alpha ha isLast,
    encodePixel_run_le e px isLast hrun, ?_⟩
  rintro rfl
  exact ⟨encodePixel_output_ne_nil_of_last e px, encodePixel_run_of_last e px⟩

/-! ### A pixel that comes back (R187) -/

/-- A pixel that is no repetition stands in its slot after its step: it was there or was stored (R182, R183). -/
theorem encodePixel_cache_self {e : EncoderState} {px : Pixel} (hne : px ≠ e.prev) (isLast : Bool) :
    (encodePixel e px isLast).1.cache[pixelHash px] = px := by
  by_cases hhit : e.cache[pixelHash px] = px
  · rw [encodePixel_cache_of_hit hne hhit]
    exact hhit
  · rw [encodePixel_cache_of_miss hne hhit]
    exact Vector.getElem_set_self _

/-- A pixel step leaves every slot but the one of the pixel's hash (R77). -/
theorem encodePixel_cache_of_hash_ne {e : EncoderState} {px : Pixel} {j : Slot} (h : pixelHash px ≠ j) (isLast : Bool) :
    (encodePixel e px isLast).1.cache[j] = e.cache[j] := by
  by_cases hrep : px = e.prev
  · rw [encodePixel_cache_of_eq hrep]
  · by_cases hhit : e.cache[pixelHash px] = px
    · rw [encodePixel_cache_of_hit hrep hhit]
    · rw [encodePixel_cache_of_miss hrep hhit]
      exact getElem_store_of_ne _ _ h.symm

/-- Pixels of other hashes leave a slot. -/
theorem encodePrefix_cache_of_hash_ne {j : Slot} : ∀ (pixels : List Pixel) (e : EncoderState) (left : Nat),
    (∀ q ∈ pixels, pixelHash q ≠ j) → (encodePrefix e left pixels).1.cache[j] = e.cache[j]
  | [], _, _, _ => rfl
  | px :: rest, e, left, h => by
    obtain ⟨hpx, hrest⟩ := List.forall_mem_cons.1 h
    rw [encodePrefix, encodePrefix_cache_of_hash_ne rest _ _ hrest, encodePixel_cache_of_hash_ne hpx]

/-- After some pixels `prev` is one of them, the last (R144). -/
theorem encodePrefix_prev_mem : ∀ (pixels : List Pixel) (e : EncoderState) (left : Nat), pixels ≠ [] →
    (encodePrefix e left pixels).1.prev ∈ pixels
  | [], _, _, h => absurd rfl h
  | [px], e, _, _ => List.mem_singleton.2 (encodePixel_prev e px _)
  | _ :: px :: rest, _, _, _ => List.mem_cons_of_mem _ (encodePrefix_prev_mem (px :: rest) _ _ (List.cons_ne_nil _ _))

/-- Settles O21: the slot still holds the pixel, and `prev` has another hash, so it is another pixel. -/
theorem revisitedPixelGivesIndex : Obligations.RevisitedPixelGivesIndex := by
  intro e px isLast left between hne hbetween hhash
  have hprev := encodePrefix_prev_mem between (encodePixel e px false).1 left hbetween
  refine selectChunk_of_hit (fun heq => hhash _ hprev (congrArg pixelHash heq.symm)) ?_ isLast
  rw [encodePrefix_cache_of_hash_ne between _ left hhash, encodePixel_cache_self hne]

end Sys2Proof.Machine
end

section
/-! PROOFS. What the operations do taken together: the chunk operations beside ENCODE-done (40_pixel_operation.md R141), the
one fault (R254), the invariant (10_state.md R53), and what host accesses leave alone (R188, R361, R371). -/

namespace Sys2Proof.Machine

/-! ### The invariant (R52, R53) -/

/-- Settles O44, by the law of hardware reset. -/
theorem resetMeetsBlockInv : Obligations.ResetMeetsBlockInv := blockInv_reset

/-- Settles O45: a step is an operation, a wait or hardware reset, and each keeps the invariant. -/
theorem everyStepKeepsBlockInv : Obligations.EveryStepKeepsBlockInv := fun _ _ => step_preserves_blockInv

/-! ### The chunk operations (R141) -/

/-- ENCODE-done at a hit (R182). -/
theorem exec_encodeDone_of_hit {s : State} (hp : s.phase = .encode) (hne : s.pxL ≠ s.enc.prev)
    (hhit : s.enc.cache[pixelHash s.pxL] = s.pxL) :
    exec .encodeDone s = .next (emitOwn false [indexByte (pixelHash s.pxL)] s) := by
  rw [exec_encodeDone_of_ne hp hne, ownChunk_of_hit hhit]
  rfl

/-- ENCODE-done at a miss (R183). -/
theorem exec_encodeDone_of_miss {s : State} (hp : s.phase = .encode) (hne : s.pxL ≠ s.enc.prev)
    (hmiss : s.enc.cache[pixelHash s.pxL] ≠ s.pxL) :
    exec .encodeDone s = .next (emitOwn true (chunkBytes (missChunk s.enc.prev s.pxL)) s) := by
  rw [exec_encodeDone_of_ne hp hne, ownChunk_of_miss hmiss]
  rfl

/-- The chunk of a miss executed at that miss: its bytes go out and the pixel is stored (R203, R204, R230, R231). -/
theorem exec_missChunk {s : State} (hp : s.phase = .encode) (hne : s.pxL ≠ s.enc.prev)
    (hmiss : s.enc.cache[pixelHash s.pxL] ≠ s.pxL) :
    exec (missChunk s.enc.prev s.pxL) s = .next (emitOwn true (chunkBytes (missChunk s.enc.prev s.pxL)) s) := by
  obtain ⟨ha, hdiff, hm⟩ | ⟨ha, hdiff, hluma, hm⟩ | ⟨ha, hdiff, hluma, hm⟩ | ⟨ha, hm⟩ :=
    missChunk_cases s.enc.prev s.pxL (vr := vrOf s) (vg := vgOf s) (vb := vbOf s) rfl rfl rfl
  all_goals rw [hm]
  · exact exec_diff_of_fits (atDelta_of_miss hp hne hmiss ha) hdiff
  · exact exec_luma_of_fits (atDelta_of_miss hp hne hmiss ha) (Bool.eq_false_iff.1 hdiff) hluma
  · exact exec_rgb_of_not_fits (atDelta_of_miss hp hne hmiss ha) (Bool.eq_false_iff.1 hdiff) (Bool.eq_false_iff.1 hluma)
  · exact exec_rgba_of_miss hp hne hmiss ha

/-- Settles O31: at a repetition, a hit and a miss the selected chunk is the step of ENCODE-done. -/
theorem selectedChunkIsTheEncodeDoneStep : Obligations.SelectedChunkIsTheEncodeDoneStep := by
  intro s i hp hi
  obtain ⟨heq, rfl⟩ | ⟨hne, hhit, rfl⟩ | ⟨hne, hmiss, rfl⟩ := selectChunk_cases hi
  · rw [selectChunk_of_eq heq, Option.ite_none_right_eq_some] at hi
    exact exec_run_of_flush hp heq rfl hi.1
  · rw [exec_index_of_hit hp hne hhit, exec_encodeDone_of_hit hp hne hhit]
  · rw [exec_missChunk hp hne hmiss, exec_encodeDone_of_miss hp hne hmiss]

/-- Where a pixel step emits a chunk: in ENCODE, the selected chunk or the RUN of a broken run. -/
def Emits (i : Instr) (s : State) : Prop :=
  s.phase = .encode ∧ (selectChunk s.enc s.pxL s.lastL = some i
    ∨ (s.pxL ≠ s.enc.prev ∧ 0 < s.enc.run ∧ i = .run s.enc.run))

/-- A pixel step at a break with alpha as before emits the chunk of its miss (R141, R201). -/
theorem emits_of_atDelta {s : State} {i : Instr} (hd : atDelta s = true)
    (hi : s.pxL.a = s.enc.prev.a → missChunk s.enc.prev s.pxL = i) : Emits i s := by
  simp only [atDelta, atBreak, cacheHit, Bool.and_eq_true, Bool.not_eq_true', decide_eq_true_eq,
    decide_eq_false_iff_not] at hd
  obtain ⟨⟨⟨hp, hne⟩, hmiss⟩, ha⟩ := hd
  exact ⟨hp, .inl (hi ha ▸ selectChunk_of_miss hne hmiss s.lastL)⟩

/-- A RUN that the pixel step does not emit changes nothing (R164, log entry 14). -/
theorem exec_run_of_not_emits {s : State} {n : Nat} (h : ¬Emits (.run n) s) : exec (.run n) s = .next s := by
  by_cases hp : s.phase = .encode
  · rw [exec, execRun, if_neg (not_not.2 hp)]
    by_cases heq : s.pxL = s.enc.prev
    · rw [if_pos heq]
      refine if_neg fun ⟨hn, hflush⟩ => h ⟨hp, .inl ?_⟩
      subst hn
      rw [selectChunk_of_eq heq, if_pos hflush]
    · rw [if_neg heq]
      exact if_neg fun ⟨hn, hpos⟩ => h ⟨hp, .inr ⟨heq, hn ▸ hpos, hn ▸ rfl⟩⟩
  · exact if_pos hp

/-- A chunk that the pixel step does not emit changes nothing: its condition is that of the selector, or of the flush. -/
theorem exec_chunk_of_not_emits {s : State} {i : Instr} (hchunk : isChunk i = true) (h : ¬Emits i s) :
    exec i s = .next s := by
  cases i with
  | index j =>
    refine if_neg fun ⟨hbreak, hhit, hj⟩ => h ?_
    obtain ⟨hp, hne⟩ := of_decide_eq_true hbreak
    exact ⟨hp, .inl (hj ▸ selectChunk_of_hit hne (of_decide_eq_true hhit) s.lastL)⟩
  | diff vr vg vb =>
    refine if_neg fun ⟨hd, hr, hg, hb, hfit⟩ => h (emits_of_atDelta hd fun ha => ?_)
    subst hr hg hb
    rw [missChunk, if_pos ha]
    exact if_pos hfit
  | luma vg vgr vgb =>
    refine if_neg fun ⟨hd, hg, hr, hb, hdiff, hluma⟩ => h (emits_of_atDelta hd fun ha => ?_)
    subst hr hg hb
    rw [missChunk, if_pos ha]
    exact (if_neg hdiff).trans (if_pos hluma)
  | rgb r g b =>
    refine if_neg fun ⟨hd, hr, hg, hb, hdiff, hluma⟩ => h (emits_of_atDelta hd fun ha => ?_)
    subst hr hg hb
    rw [missChunk, if_pos ha]
    exact (if_neg hdiff).trans (if_neg hluma)
  | rgba r g b a =>
    refine if_neg fun ⟨hbreak, hhit, ha, hr, hg, hb, haeq⟩ => h ?_
    subst hr hg hb haeq
    obtain ⟨hp, hne⟩ := of_decide_eq_true hbreak
    have hmiss := selectChunk_of_miss hne (mt decide_eq_true hhit) s.lastL
    rw [missChunk, if_neg ha] at hmiss
    exact ⟨hp, .inl hmiss⟩
  | run n => exact exec_run_of_not_emits h
  | _ => cases hchunk

/-- Settles O32: such a chunk is not emitted. -/
theorem unselectedChunkChangesNothing : Obligations.UnselectedChunkChangesNothing := by
  intro s i hchunk h
  refine exec_chunk_of_not_emits hchunk fun ⟨hp, hemits⟩ => ?_
  obtain ⟨hselected, hflush⟩ := h.resolve_left (not_not.2 hp)
  exact hemits.elim hselected hflush

/-- Outside ENCODE a chunk changes nothing (log entry 7). -/
theorem exec_chunk_of_phase_ne {s : State} {i : Instr} (hchunk : isChunk i = true) (hp : s.phase ≠ .encode) :
    exec i s = .next s :=
  exec_chunk_of_not_emits hchunk fun h => hp h.1

/-! ### Every operation goes on (R254) -/

/-- ENCODE-done ends the pixel step or changes nothing (R271). -/
theorem exec_encodeDone_goes_on (s : State) : ∃ t, exec .encodeDone s = .next t := by
  obtain ⟨-, h⟩ | ⟨-, h⟩ := exec_encodeDone_cases s
  all_goals exact ⟨_, h⟩

/-- An operation other than a read of DATA_OUT goes on in every state. -/
theorem exec_goes_on_of_ne_rdDataOut {i : Instr} (hi : i ≠ .rdDataOut) (s : State) : ∃ t, exec i s = .next t := by
  by_cases hchunk : isChunk i = true
  · obtain h | ⟨-, h⟩ := exec_chunk_cases s i hchunk
    · exact ⟨s, h⟩
    · rw [h]
      exact exec_encodeDone_goes_on s
  · cases i with
    | index | diff | luma | run | rgb | rgba => exact absurd rfl hchunk
    | rdDataOut => exact absurd rfl hi
    | wrDataIn v =>
      by_cases hp : s.phase = .accept
      · exact ⟨_, exec_wrDataIn_of_accept hp v⟩
      · exact ⟨_, exec_wrDataIn_of_ne hp v⟩
    | wrCtrl v =>
      cases hv : v.getLsbD 0 with
      | true => exact ⟨_, exec_wrCtrl_of_start hv s⟩
      | false => exact ⟨_, exec_wrCtrl_of_not_start hv s⟩
    | clearDone =>
      by_cases hp : s.phase = .clear
      · exact ⟨_, exec_clearDone_of_clear hp⟩
      · exact ⟨s, if_neg hp⟩
    | encodeDone => exact exec_encodeDone_goes_on s
    | _ => exact ⟨_, rfl⟩

/-- A read of DATA_OUT faults in EMIT with an empty buffer and goes on otherwise (R254, R255, log entry 6). -/
theorem exec_rdDataOut_fault_or_goes_on (s : State) :
    (s.phase = .emit ∧ s.obuf = [] ∧ exec .rdDataOut s = .fault .emptyOutputBuffer)
      ∨ (¬(s.phase = .emit ∧ s.obuf = []) ∧ ∃ t, exec .rdDataOut s = .next t) := by
  by_cases hp : s.phase = .emit
  · cases ho : s.obuf with
    | nil => exact .inl ⟨hp, rfl, by simp [exec, execRdDataOut, hp, ho]⟩
    | cons v rest => exact .inr ⟨by simp, _, exec_rdDataOut_of_emit hp ho⟩
  · exact .inr ⟨fun h => hp h.1, _, exec_rdDataOut_of_ne hp⟩

/-- Settles O47: the invariant excludes the one fault, since in EMIT the buffer is not empty. -/
theorem everyOperationGoesOn : Obligations.EveryOperationGoesOn := by
  intro s i
  by_cases hi : i = .rdDataOut
  · subst hi
    obtain ⟨hp, ho, hfault⟩ | ⟨hnot, hnext⟩ := exec_rdDataOut_fault_or_goes_on s
    · rw [if_pos ⟨rfl, hp, ho⟩]
      exact ⟨hfault, fun hinv => absurd ho (hinv.emit hp).1⟩
    · rw [if_neg fun h => hnot h.2]
      exact ⟨hnext, fun _ => hnext⟩
  · have hnext := exec_goes_on_of_ne_rdDataOut hi s
    rw [if_neg fun h => hi h.1]
    exact ⟨hnext, fun _ => hnext⟩

/-! ### What host accesses leave alone (R188, R371) -/

/-- A chunk is no register access (R100). -/
theorem isHostAccess_of_isChunk {i : Instr} (hchunk : isChunk i = true) : isHostAccess i = false := by
  cases i with
  | index | diff | luma | run | rgb | rgba => rfl
  | _ => cases hchunk

/-- A host access other than START leaves the core state, and a phase that is neither ACCEPT nor EMIT (R51, R188, R371). -/
theorem exec_hostAccess_frame {s t : State} {i : Instr} (hi : isHostAccess i = true) (hstart : isStart i = false)
    (he : exec i s = .next t) : t.enc = s.enc ∧ (s.phase ≠ .accept → s.phase ≠ .emit → t.phase = s.phase) := by
  rcases exec_next_cases s t i he with rfl | ⟨v, -, hp, rfl⟩ | ⟨v, -, -, rfl⟩ | ⟨v, rest, -, hp, -, rfl⟩ | ⟨-, -, rfl⟩
    | ⟨v, -, -, -, rfl⟩ | ⟨v, rfl, hv, -⟩ | ⟨v, -, -, rfl⟩ | ⟨j, v, -, rfl⟩ | ⟨rfl, -, -⟩ | ⟨hpixel, -, -⟩
  · exact ⟨rfl, fun _ _ => rfl⟩
  · exact ⟨acceptByte_enc v s, fun hne _ => absurd hp hne⟩
  · exact ⟨protocolError_enc _ s, fun _ _ => protocolError_phase _ s⟩
  · exact ⟨rfl, fun _ hne => absurd hp hne⟩
  · exact ⟨protocolError_enc _ s, fun _ _ => protocolError_phase _ s⟩
  · exact ⟨rfl, fun _ _ => rfl⟩
  · cases hv.symm.trans hstart
  · exact ⟨rfl, fun _ _ => rfl⟩
  · exact ⟨rfl, fun _ _ => rfl⟩
  · cases hi
  · obtain rfl | hchunk := hpixel
    · cases hi
    · cases hi.symm.trans (isHostAccess_of_isChunk hchunk)

/-- Settles O51: START alone writes the core state, and not the cache. -/
theorem hostAccessesLeaveTheCoreState : Obligations.HostAccessesLeaveTheCoreState := by
  intro s t i hi he
  cases hstart : isStart i with
  | true =>
    obtain ⟨ch4, rfl⟩ := exec_of_isStart hstart he
    exact ⟨rfl, nofun⟩
  | false =>
    obtain ⟨henc, -⟩ := exec_hostAccess_frame hi hstart he
    exact ⟨congrArg EncoderState.cache henc, fun _ => henc⟩

/-- A busy block is in CLEAR or ENCODE (R45). -/
theorem busy_iff (p : Phase) : busy p = true ↔ p = .clear ∨ p = .encode := decide_eq_true_iff

/-- After its pixels or a pixel the block is done or waits for the next pixel (R254, R270, R271). -/
theorem busy_afterDrain (last : Bool) : busy (afterDrain last) = false := by cases last <;> rfl

/-- A clear block is busy no more (R270). -/
theorem busy_clearCache (s : State) : busy (clearCache s).phase = false := by
  rw [clearCache_phase]
  split <;> rfl

/-- A block is busy no more when its pixel step has ended (R271). -/
theorem busy_finishPixel (e : EncoderState) (out : List Byte) (s : State) : busy (finishPixel e out s).phase = false := by
  rw [finishPixel_phase]
  split
  · exact busy_afterDrain _
  · rfl

/-- Settles O52: no access but START leads out of CLEAR or ENCODE, and both internal steps do. -/
theorem enabledInternalStepIsTaken : Obligations.EnabledInternalStepIsTaken := by
  refine ⟨fun s t i hi hstart he hbusy => ?_, fun s hnil hbusy => ?_⟩
  · obtain ⟨-, hphase⟩ := exec_hostAccess_frame hi hstart he
    obtain hp | hp := (busy_iff _).1 hbusy
    all_goals exact hphase (by simp [hp]) (by simp [hp])
  · obtain ⟨-, hclear, hencode⟩ := stepRunsDecodedOperation
    obtain hp | hp := (busy_iff _).1 hbusy
    · exact ⟨_, (hclear s hnil hp).trans (exec_clearDone_of_clear hp), busy_clearCache s⟩
    · exact ⟨_, (hencode s hnil hp).trans (exec_encodeDone_of_encode hp), busy_finishPixel _ _ s⟩

/-! ### The cache before CLEAR-done (R361, U6) -/

/-- The same state with another cache. -/
def withCache (c : Vector Pixel 64) (s : State) : State := { s with enc := { s.enc with cache := c } }

/-- Two outcomes that go on, to states that differ in the cache alone; it is `c` in IDLE or CLEAR, or does not differ. -/
def CacheUnseen (c : Vector Pixel 64) (o o' : Host.Outcome State Fault Refusal) : Prop :=
  ∃ t c', o = .next t ∧ o' = .next (withCache c' t)
    ∧ (c' = t.enc.cache ∨ (c' = c ∧ (t.phase = .idle ∨ t.phase = .clear)))

/-- An operation that carries the cache along, and stays in or goes to IDLE or CLEAR. -/
theorem CacheUnseen.carried {c : Vector Pixel 64} {o o' : Host.Outcome State Fault Refusal} {t : State} (h : o = .next t)
    (h' : o' = .next (withCache c t)) (hp : t.phase = .idle ∨ t.phase = .clear) : CacheUnseen c o o' :=
  ⟨t, c, h, h', .inr ⟨rfl, hp⟩⟩

/-- The error record has nothing to do with the cache (R331). -/
theorem protocolError_withCache (code : BitVec 2) (c : Vector Pixel 64) (s : State) :
    protocolError code (withCache c s) = withCache c (protocolError code s) := by
  rw [protocolError_spec, protocolError_spec]
  rfl

/-- Settles O53: in IDLE and CLEAR no operation reads the cache, and CLEAR-done overwrites it. -/
theorem cacheIsUnobservableBeforeClear : Obligations.CacheIsUnobservableBeforeClear := by
  intro s c i hp
  have haccept : s.phase ≠ .accept := by rintro h; simp [h] at hp
  have hencode : s.phase ≠ .encode := by rintro h; simp [h] at hp
  have hemit : s.phase ≠ .emit := by rintro h; simp [h] at hp
  change CacheUnseen c (exec i s) (exec i (withCache c s))
  cases i with
  | index | diff | luma | run | rgb | rgba =>
    exact .carried (exec_chunk_of_phase_ne rfl hencode) (exec_chunk_of_phase_ne rfl hencode) hp
  | wrDataIn v =>
    have hc := exec_wrDataIn_of_ne (s := withCache c s) haccept v
    rw [protocolError_withCache] at hc
    exact .carried (exec_wrDataIn_of_ne haccept v) hc (by simpa using hp)
  | rdDataOut =>
    have hc := exec_rdDataOut_of_ne (s := withCache c s) hemit
    rw [protocolError_withCache] at hc
    exact .carried (exec_rdDataOut_of_ne hemit) hc (by simpa using hp)
  | wrCtrl v =>
    cases hv : v.getLsbD 0 with
    | true => exact .carried (exec_wrCtrl_of_start hv s) (exec_wrCtrl_of_start hv (withCache c s)) (.inr rfl)
    | false => exact .carried (exec_wrCtrl_of_not_start hv s) (exec_wrCtrl_of_not_start hv (withCache c s)) hp
  | clearDone =>
    by_cases hclear : s.phase = .clear
    · exact ⟨_, _, exec_clearDone_of_clear hclear, exec_clearDone_of_clear (s := withCache c s) hclear, .inl rfl⟩
    · exact .carried (if_neg hclear) (if_neg hclear) hp
  | encodeDone => exact .carried (if_neg hencode) (if_neg hencode) hp
  | _ => exact .carried rfl rfl hp

end Sys2Proof.Machine
end

section
/-! PROOFS. The bytes of one pixel on DATA_IN (20_memory.md R74, 45_host_interface.md R252) and the flags of STATUS that
exclude each other (10_state.md R45). -/

namespace Sys2Proof.Machine

/-! ### The bytes of a pixel (R74, R252) -/

/-- A channel count is at least three (R8). -/
theorem three_le_channelCount (n : Channels) : 3 ≤ channelCount n := by cases n <;> decide

/-- Red, the first byte of a pixel (R74). -/
theorem acceptByte_red {s : State} (hk : s.k = 0) (r : Byte) : acceptByte r s = { s with inr := r, k := 1 } := by
  have hcount := three_le_channelCount s.nch
  rw [acceptByte_of_ne (by omega), latchByte_spec]
  simp [hk]

/-- Red and green, the first two bytes of a pixel (R74). -/
theorem acceptByte_green_red {s : State} (hk : s.k = 0) (r g : Byte) :
    acceptByte g (acceptByte r s) = { s with inr := r, ing := g, k := 2 } := by
  have hcount := three_le_channelCount s.nch
  rw [acceptByte_red hk, acceptByte_of_ne (by dsimp only; omega), latchByte_spec]
  simp

/-- Red, green and blue, the bytes of a pixel of four channels before the last (R74). -/
theorem acceptByte_blue_green_red_of_four {s : State} (hk : s.k = 0) (hn : s.nch = .four) (r g b : Byte) :
    acceptByte b (acceptByte g (acceptByte r s)) = { s with inr := r, ing := g, inb := b, k := 3 } := by
  rw [acceptByte_green_red hk, acceptByte_of_ne (by simp [hn, channelCount]), latchByte_spec]
  simp

/-- The pixel the block gets when the host delivers one: with three channels alpha is 255 (R74, R252). -/
def delivered (n : Channels) (p : Pixel) : Pixel := { p with a := alphaOf n p.a }

/-- With four channels the block gets the pixel as it is. -/
@[simp] theorem delivered_four (p : Pixel) : delivered .four p = p := rfl

/-- With three channels the block gets the pixel with alpha 255. -/
@[simp] theorem delivered_three (p : Pixel) : delivered .three p = { p with a := 255 } := rfl

/-- The state in ENCODE with a whole pixel latched (R252). -/
def latched (p : Pixel) (s : State) : State :=
  { s with
    inr := p.r
    ing := p.g
    inb := p.b
    pxL := delivered s.nch p
    lastL := atLastPixel s
    k := 0
    phase := .encode }

/-- Three bytes are a pixel with three channels, of alpha 255 (R74, R252). -/
theorem acceptByte_pixel_of_three {s : State} (hk : s.k = 0) (hn : s.nch = .three) (p : Pixel) :
    acceptByte p.b (acceptByte p.g (acceptByte p.r s)) = latched p s := by
  rw [acceptByte_green_red hk, acceptByte_of_eq (by simp [hn, channelCount])]
  simp [latched, completedPixel, atLastPixel, hn]

/-- Four bytes are a pixel with four channels (R74, R252). -/
theorem acceptByte_pixel_of_four {s : State} (hk : s.k = 0) (hn : s.nch = .four) (p : Pixel) :
    acceptByte p.a (acceptByte p.b (acceptByte p.g (acceptByte p.r s))) = latched p s := by
  rw [acceptByte_blue_green_red_of_four hk hn, acceptByte_of_eq (by simp [hn, channelCount])]
  simp [latched, completedPixel, atLastPixel, hn]

/-- Settles O35: the bytes go through the latches into the pixel. -/
theorem channelBytesArriveInOrder : Obligations.ChannelBytesArriveInOrder := by
  intro s p hp hk
  have hp1 : (acceptByte p.r s).phase = .accept := by rw [acceptByte_red hk, hp]
  have hp2 : (acceptByte p.g (acceptByte p.r s)).phase = .accept := by rw [acceptByte_green_red hk, hp]
  refine ⟨_, _, _, exec_wrDataIn_of_accept hp p.r, exec_wrDataIn_of_accept hp1 p.g, exec_wrDataIn_of_accept hp2 p.b,
    fun hn => ?_, fun hn => ?_⟩
  · rw [acceptByte_pixel_of_three hk hn]
    exact ⟨rfl, by simp [latched, hn]⟩
  · have hp3 : (acceptByte p.b (acceptByte p.g (acceptByte p.r s))).phase = .accept := by
      rw [acceptByte_blue_green_red_of_four hk hn, hp]
    refine ⟨hp3, _, exec_wrDataIn_of_accept hp3 p.a, ?_⟩
    rw [acceptByte_pixel_of_four hk hn]
    exact ⟨rfl, by simp [latched, hn]⟩

/-! ### The flags of STATUS (R45) -/

/-- The mask of RD_REQ, WR_REQ, DONE and BUSY, bits 0, 1, 2 and 6. -/
theorem and_flagMask_eq_zero_iff : ∀ v : Byte, v &&& 0x47 = 0 ↔
    v.getLsbD 0 = false ∧ v.getLsbD 1 = false ∧ v.getLsbD 2 = false ∧ v.getLsbD 6 = false := by decide

/-- Settles O39: each of the four flags is a phase or two of its own, and together they are all but IDLE. -/
theorem statusFlagsExcludeEachOther : Obligations.StatusFlagsExcludeEachOther := by
  intro s
  obtain ⟨haccept, hemit, hdone, -, -, -, hbusy, -⟩ := getLsbD_statusByte s
  rw [and_flagMask_eq_zero_iff]
  simp only [List.filter_cons, List.filter_nil, haccept, hemit, hdone, hbusy]
  cases s.phase <;> decide

end Sys2Proof.Machine
end

section
/-! PROOFS. The encode the block is in the middle of (45_host_interface.md R273): every operation keeps the relation between
the pixels delivered, the bytes read and the state, and in DONE it gives EncodeImage. -/

namespace Sys2Proof.Machine

/-! ### The fold of EncodePixel over the first pixels of an image (R147) -/

/-- One more pixel: it is the last of the image if one was left. -/
theorem encodePrefix_append_singleton (px : Pixel) : ∀ (pixels : List Pixel) (e : EncoderState) (left : Nat),
    encodePrefix e left (pixels ++ [px]) =
      ((encodePixel (encodePrefix e left pixels).1 px (decide (left - pixels.length = 1))).1,
        (encodePrefix e left pixels).2
          ++ (encodePixel (encodePrefix e left pixels).1 px (decide (left - pixels.length = 1))).2)
  | [], e, left => by simp [encodePrefix]
  | q :: rest, e, left => by
    have hleft : left - (q :: rest).length = left - 1 - rest.length := by
      rw [List.length_cons]
      omega
    rw [List.cons_append, encodePrefix, encodePrefix_append_singleton px rest, encodePrefix, hleft]
    simp only [List.append_assoc]

/-- All the pixels of an image give the chunk stream of the image (R147). -/
theorem encodePrefix_length_eq_encodeFrom : ∀ (pixels : List Pixel) (e : EncoderState),
    (encodePrefix e pixels.length pixels).2 = encodeFrom e pixels
  | [], _ => rfl
  | px :: rest, e => by
    have hlast : decide ((px :: rest).length = 1) = rest.isEmpty := by cases rest <;> simp
    rw [encodePrefix, encodeFrom, hlast, ← encodePrefix_length_eq_encodeFrom rest]
    rfl

/-! ### What each operation on the state does to the relation -/

/-- START begins an encode of which nothing is delivered and nothing read (R262). -/
theorem tracks_start (s : State) : Tracks [] [] (start s) := by
  simp [Tracks]

/-- The relation speaks of no value returned to the host, neither of CH4 and COUNT, nor of the error record. -/
theorem tracks_congr {pixels : List Pixel} {out : List Byte} {s : State} (h : Tracks pixels out s) (rdata : Byte)
    (ch4 : Bool) (count : Word32) : Tracks pixels out { s with rdata := rdata, ch4 := ch4, count := count } := h

/-- Between two pixels the output buffer decides the phase, and the relation is the same in EMIT, ACCEPT and DONE. -/
theorem tracks_of_drain {pixels : List Pixel} {out : List Byte} {s : State}
    (hphase : s.phase = if s.obuf = [] then afterDrain s.fin else .emit) (hlen : pixels.length = s.pos.toNat)
    (hle : s.pos.toNat ≤ s.npix.toNat) (hk : s.k = 0) (hfin : s.fin = true ↔ s.pos = s.npix)
    (henc : (s.enc, out ++ s.obuf) = encodePrefix freshEncoder s.npix.toNat pixels) : Tracks pixels out s := by
  by_cases hobuf : s.obuf = []
  · rw [if_pos hobuf] at hphase
    rw [hobuf, List.append_nil] at henc
    cases hf : s.fin with
    | true =>
      have hend : s.pos = s.npix := hfin.1 hf
      have hp : s.phase = .done := by rw [hphase, hf]; rfl
      simp only [Tracks, hp]
      exact ⟨by rw [hlen, hend], hobuf, henc⟩
    | false =>
      have hne : s.pos.toNat ≠ s.npix.toNat := fun heq => by
        simp [hfin.2 (BitVec.eq_of_toNat_eq heq)] at hf
      have hp : s.phase = .accept := by rw [hphase, hf]; rfl
      simp only [Tracks, hp]
      exact ⟨hlen, by omega, by rw [hk]; exact channelCount_pos _, henc⟩
  · rw [if_neg hobuf] at hphase
    simp only [Tracks, hphase]
    exact ⟨hlen, hle, hk, hfin, henc⟩

/-- CLEAR-done gives the fresh encoder, and DONE at once if there is no pixel to encode (R270). -/
theorem clearCache_preserves_tracks {pixels : List Pixel} {out : List Byte} {s : State} (hp : s.phase = .clear)
    (h : Tracks pixels out s) : Tracks pixels out (clearCache s) := by
  simp only [Tracks, hp] at h
  obtain ⟨rfl, rfl, hprev, hrun, hpos, hk, hobuf⟩ := h
  have henc : (clearCache s).enc = freshEncoder := by simp [freshEncoder, hprev, hrun]
  by_cases hnpix : s.npix = 0
  · have hdone : (clearCache s).phase = .done := by rw [clearCache_phase, if_pos hnpix]
    simp only [Tracks, hdone, henc]
    exact ⟨by simp [hnpix], hobuf, rfl⟩
  · have haccept : (clearCache s).phase = .accept := by rw [clearCache_phase, if_neg hnpix]
    have hlt : 0 < s.npix.toNat := Nat.pos_of_ne_zero fun h0 => hnpix (BitVec.eq_of_toNat_eq h0)
    simp only [Tracks, haccept, henc]
    exact ⟨by simp [hpos], by simpa [hpos] using hlt, by simpa [hk] using channelCount_pos s.nch, rfl⟩

/-- A channel byte that does not complete the pixel delivers none (R252). -/
theorem acceptByte_preserves_tracks_of_ne {pixels : List Pixel} {out : List Byte} {s : State} (hp : s.phase = .accept)
    (hk : s.k + 1 ≠ channelCount s.nch) (h : Tracks pixels out s) (v : Byte) : Tracks pixels out (acceptByte v s) := by
  have haccept : (acceptByte v s).phase = .accept := by rw [acceptByte_phase, if_neg hk, hp]
  simp only [Tracks, hp] at h
  obtain ⟨hlen, hpos, hlt, henc⟩ := h
  simp only [Tracks, haccept, acceptByte_pos, acceptByte_npix, acceptByte_nch, acceptByte_enc, acceptByte_k, if_neg hk]
  exact ⟨hlen, hpos, by omega, henc⟩

/-- The byte that completes a pixel delivers it (R252). -/
theorem acceptByte_tracks_of_eq {pixels : List Pixel} {out : List Byte} {s : State} (hp : s.phase = .accept)
    (hk : s.k + 1 = channelCount s.nch) (h : Tracks pixels out s) (v : Byte) :
    Tracks (pixels ++ [completedPixel v s]) out (acceptByte v s) := by
  simp only [Tracks, hp] at h
  obtain ⟨hlen, hpos, -, henc⟩ := h
  rw [acceptByte_of_eq hk]
  exact ⟨pixels, rfl, hlen, hpos, rfl, rfl, henc⟩

/-- A byte read moves from the output buffer to the bytes read (R254). -/
theorem popByte_tracks {pixels : List Pixel} {out rest : List Byte} {v : Byte} {s : State} (hp : s.phase = .emit)
    (hobuf : s.obuf = v :: rest) (h : Tracks pixels out s) : Tracks pixels (out ++ [v]) (popByte v rest s) := by
  simp only [Tracks, hp] at h
  obtain ⟨hlen, hle, hk, hfin, henc⟩ := h
  refine tracks_of_drain (by rw [popByte_phase, hp]; rfl) hlen hle hk hfin ?_
  rw [popByte_obuf, List.append_assoc, List.singleton_append, ← hobuf]
  exact henc

/-- A pixel step puts what EncodePixel gives for the pixel into the core state and the output buffer (R271). -/
theorem finishPixel_preserves_tracks {pixels : List Pixel} {out : List Byte} {s : State} (hp : s.phase = .encode)
    (h : Tracks pixels out s) :
    Tracks pixels out (finishPixel (encodePixel s.enc s.pxL s.lastL).1 (encodePixel s.enc s.pxL s.lastL).2 s) := by
  simp only [Tracks, hp] at h
  obtain ⟨before, rfl, hlen, hlt, hk, hlast, henc⟩ := h
  have hpos := toNat_add_one_of_lt hlt
  have hfin : s.lastL = true ↔ s.pos + 1 = s.npix := by
    rw [hlast, atLastPixel_iff, ← hpos, BitVec.toNat_inj]
  have hleft : decide (s.npix.toNat - before.length = 1) = s.lastL := by
    rw [hlast, atLastPixel, hlen, decide_eq_decide]
    omega
  refine tracks_of_drain rfl ?_ (by rw [finishPixel_pos, hpos]; exact hlt) hk hfin ?_
  · rw [finishPixel_pos, hpos, List.length_append, hlen, List.length_singleton]
  · rw [finishPixel_npix, encodePrefix_append_singleton, ← henc, hleft]
    rfl

/-! ### Every operation -/

/-- Only a write to DATA_IN delivers a pixel. -/
theorem pixelsAfter_of_ne {i : Instr} (h : ∀ v, i ≠ .wrDataIn v) (s : State) (pixels : List Pixel) :
    pixelsAfter i s pixels = pixels := by
  cases i with
  | wrDataIn v => exact absurd rfl (h v)
  | _ => rfl

/-- Only a read of DATA_OUT takes a byte. -/
theorem outAfter_of_ne {i : Instr} (h : i ≠ .rdDataOut) (s t : State) (out : List Byte) : outAfter i s t out = out := by
  cases i with
  | rdDataOut => exact absurd rfl h
  | _ => rfl

/-- An operation that neither writes DATA_IN nor reads DATA_OUT nor performs START keeps the relation as it is. -/
theorem exec_preserves_tracks {pixels : List Pixel} {out : List Byte} {s t : State} {i : Instr}
    (hin : ∀ v, i ≠ .wrDataIn v) (hout : i ≠ .rdDataOut) (hstart : isStart i = false) (he : exec i s = .next t)
    (h : Tracks pixels out s) : Tracks pixels out t := by
  rcases exec_next_cases s t i he with rfl | ⟨v, hi, -⟩ | ⟨v, hi, -⟩ | ⟨v, rest, hi, -⟩ | ⟨hi, -⟩
    | ⟨v, -, -, -, rfl⟩ | ⟨v, rfl, hv, -⟩ | ⟨v, -, -, rfl⟩ | ⟨j, v, -, rfl⟩ | ⟨-, hp, rfl⟩ | ⟨-, hp, rfl⟩
  · exact h
  · exact absurd hi (hin v)
  · exact absurd hi (hin v)
  · exact absurd hi hout
  · exact absurd hi hout
  · exact tracks_congr h v s.ch4 s.count
  · cases hv.symm.trans hstart
  · exact tracks_congr h s.rdata (v.getLsbD 1) s.count
  · exact tracks_congr h s.rdata s.ch4 (withCountByte s.count j v)
  · exact clearCache_preserves_tracks hp h
  · exact finishPixel_preserves_tracks hp h

/-- A write to DATA_IN without an error is a channel byte, which delivers the pixel it completes (R252). -/
theorem exec_wrDataIn_tracks {pixels : List Pixel} {out : List Byte} {s t : State} {v : Byte}
    (he : exec (.wrDataIn v) s = .next t) (herr : t.err = false) (h : Tracks pixels out s) :
    Tracks (pixelsAfter (.wrDataIn v) s pixels) out t := by
  by_cases hp : s.phase = .accept
  · cases (exec_wrDataIn_of_accept hp v).symm.trans he
    rw [pixelsAfter]
    by_cases hk : s.k + 1 = channelCount s.nch
    · rw [if_pos ⟨hp, hk⟩]
      exact acceptByte_tracks_of_eq hp hk h v
    · rw [if_neg fun hlast => hk hlast.2]
      exact acceptByte_preserves_tracks_of_ne hp hk h v
  · cases (exec_wrDataIn_of_ne hp v).symm.trans he
    simp at herr

/-- A read of DATA_OUT without an error takes the oldest byte (R254). -/
theorem exec_rdDataOut_tracks {pixels : List Pixel} {out : List Byte} {s t : State}
    (he : exec .rdDataOut s = .next t) (herr : t.err = false) (h : Tracks pixels out s) :
    Tracks pixels (outAfter .rdDataOut s t out) t := by
  by_cases hp : s.phase = .emit
  · rw [outAfter, if_pos hp]
    cases hobuf : s.obuf with
    | nil => simp [exec, execRdDataOut, hp, hobuf] at he
    | cons v rest =>
      cases (exec_rdDataOut_of_emit hp hobuf).symm.trans he
      exact popByte_tracks hp hobuf h
  · cases (exec_rdDataOut_of_ne hp).symm.trans he
    simp at herr

/-- Settles O54: START begins the relation, DATA_IN and DATA_OUT carry it on, and every other operation keeps it. -/
theorem everyOperationKeepsTracking : Obligations.EveryOperationKeepsTracking := by
  refine fun s t i he => ⟨fun hi => ?_, fun pixels out hi herr h => ?_⟩
  · obtain ⟨ch4, rfl⟩ := exec_of_isStart hi he
    exact tracks_start _
  · by_cases hin : ∃ v, i = .wrDataIn v
    · obtain ⟨v, rfl⟩ := hin
      exact exec_wrDataIn_tracks he herr h
    · rw [not_exists] at hin
      rw [pixelsAfter_of_ne hin]
      by_cases hout : i = .rdDataOut
      · subst hout
        exact exec_rdDataOut_tracks he herr h
      · rw [outAfter_of_ne hout]
        exact exec_preserves_tracks hin hout hi he h

/-- Settles O55: the relation in DONE is over all the pixels of the image. -/
theorem trackedEncodeEndsWithTheImage : Obligations.TrackedEncodeEndsWithTheImage := by
  intro s pixels out hp _ h
  simp only [Tracks, hp] at h
  obtain ⟨hlen, hobuf, henc⟩ := h
  refine ⟨?_, hlen, hobuf⟩
  rw [← hlen] at henc
  exact (congrArg Prod.snd henc).trans (encodePrefix_length_eq_encodeFrom pixels freshEncoder)

end Sys2Proof.Machine
end

section
/-! PROOFS. The host that follows the start-up order (70_reset_and_hazards.md R363, 30_encoding.md R114) on the schedule of log
entry 10: it reads EncodeImage of its image from any state, and frames it as the software loop does (46_stream_framing.md
R307). -/

namespace Sys2Proof.Machine

/-! ### POLL and PUSHPX (R114) -/

/-- The mask of RD_REQ. -/
theorem and_rdReqMask_ne_zero_iff : ∀ v : Byte, v &&& 0x01 ≠ 0 ↔ v.getLsbD 0 = true := by decide

/-- One round of POLL for RD_REQ, which is 1 in ACCEPT (R45). -/
theorem poll_rdReq_succ (fuel : Nat) (s : State) : poll 0x01 (fuel + 1) s =
    if s.phase = .accept then some (returnByte (statusByte s) s)
    else (perform .internal (returnByte (statusByte s) s)).bind (poll 0x01 fuel) := by
  obtain ⟨haccept, -⟩ := getLsbD_statusByte s
  rw [poll, regRead_status]
  simp only [and_rdReqMask_ne_zero_iff, haccept, decide_eq_true_eq]
  rfl

/-- The turn of a block in CLEAR (R270). -/
theorem perform_internal_of_clear {s : State} (hp : s.phase = .clear) : perform .internal s = some (clearCache s) :=
  perform_eq _ .clearDone _ _ (by rw [hp]; rfl) (exec_clearDone_of_clear hp)

/-- The turn of a block in ENCODE (R271). -/
theorem perform_internal_of_encode {s : State} (hp : s.phase = .encode) : perform .internal s
    = some (finishPixel (encodePixel s.enc s.pxL s.lastL).1 (encodePixel s.enc s.pxL s.lastL).2 s) :=
  perform_eq _ .encodeDone _ _ (by rw [hp]; rfl) (exec_encodeDone_of_encode hp)

/-- In CLEAR the poll waits for CLEAR-done, and for nothing more if there is a pixel to encode (R270). -/
theorem poll_rdReq_of_clear {s : State} (hp : s.phase = .clear) (hnpix : s.npix ≠ 0) (fuel : Nat) :
    poll 0x01 (fuel + 2) s = poll 0x01 (fuel + 2) (clearCache s) := by
  have haccept : (clearCache s).phase = .accept := if_neg hnpix
  have hturn : (clearCache (returnByte (statusByte s) s)).phase = .accept := if_neg hnpix
  rw [poll_rdReq_succ, if_neg (by simp [hp]), perform_internal_of_clear (s := returnByte (statusByte s) s) hp,
    Option.bind_some, poll_rdReq_succ, if_pos hturn, poll_rdReq_succ, if_pos haccept]
  rfl

/-- A channel byte written in ACCEPT, and the others after it. -/
theorem writeAll_dataIn_cons {s : State} (hp : s.phase = .accept) (v : Byte) (vs : List Byte) :
    writeAll 0 (v :: vs) s = writeAll 0 vs (acceptByte v s) := by
  rw [writeAll, regWrite_dataIn v s _ (exec_wrDataIn_of_accept hp v), Option.bind_some]

/-- The bytes of a pixel written in ACCEPT are latched (R74, R252). -/
theorem writeAll_channelBytes {s : State} (hp : s.phase = .accept) (hk : s.k = 0) (p : Pixel) :
    writeAll 0 (channelBytes s.nch p) s = some (latched p s) := by
  have hp1 : (acceptByte p.r s).phase = .accept := by rw [acceptByte_red hk, hp]
  have hp2 : (acceptByte p.g (acceptByte p.r s)).phase = .accept := by rw [acceptByte_green_red hk, hp]
  cases hn : s.nch with
  | three =>
    rw [channelBytes, writeAll_dataIn_cons hp, writeAll_dataIn_cons hp1, writeAll_dataIn_cons hp2,
      acceptByte_pixel_of_three hk hn, writeAll]
  | four =>
    have hp3 : (acceptByte p.b (acceptByte p.g (acceptByte p.r s))).phase = .accept := by
      rw [acceptByte_blue_green_red_of_four hk hn, hp]
    rw [channelBytes, writeAll_dataIn_cons hp, writeAll_dataIn_cons hp1, writeAll_dataIn_cons hp2,
      writeAll_dataIn_cons hp3, acceptByte_pixel_of_four hk hn, writeAll]

/-- PUSHPX in ACCEPT (R114). -/
theorem pushPixel_of_accept {s : State} (hp : s.phase = .accept) (hk : s.k = 0) (fuel : Nat) (p : Pixel) :
    pushPixel (fuel + 1) s.nch p s = some (latched p (returnByte (statusByte s) s)) := by
  rw [pushPixel, poll_rdReq_succ, if_pos hp, Option.bind_some]
  exact writeAll_channelBytes (s := returnByte (statusByte s) s) hp hk p

/-! ### DRAIN (R114) -/

/-- One round of DRAIN by the phase that STATUS shows (R45). -/
theorem drain_succ_eq_ite (fuel : Nat) (s : State) : drain (fuel + 1) s =
    if s.phase = .emit then
      (regRead 1 (returnByte (statusByte s) s)).bind fun q => (drain fuel q.2).map fun r => (q.1 :: r.1, r.2)
    else if s.phase = .accept ∨ s.phase = .done then some ([], returnByte (statusByte s) s)
    else (perform .internal (returnByte (statusByte s) s)).bind (drain fuel) := by
  obtain ⟨haccept, hemit, hdone, -⟩ := getLsbD_statusByte s
  rw [drain_succ, haccept, hemit, hdone]
  simp only [Bool.or_eq_true, decide_eq_true_eq]
  split
  · rw [returnByte]
    cases regRead 1 { s with rdata := statusByte s } <;> rfl
  · rfl

/-- One round of DRAIN in EMIT reads a byte (R254). -/
theorem drain_of_emit {s : State} {b : Byte} {rest : List Byte} (hp : s.phase = .emit) (hobuf : s.obuf = b :: rest)
    (fuel : Nat) : drain (fuel + 1) s =
      (drain fuel (popByte b rest (returnByte (statusByte s) s))).map fun r => (b :: r.1, r.2) := by
  have hread := regRead_dataOut (returnByte (statusByte s) s) _ (exec_rdDataOut_of_emit hp hobuf)
  rw [drain_succ_eq_ite, if_pos hp, hread]
  rfl

/-- DRAIN ends in ACCEPT and in DONE (R114). -/
theorem drain_of_drained {s : State} {last : Bool} (hp : s.phase = afterDrain last) (fuel : Nat) :
    drain (fuel + 1) s = some ([], returnByte (statusByte s) s) := by
  rw [drain_succ_eq_ite, hp]
  cases last <;> rfl

/-- One round of DRAIN in ENCODE gives the block its turn (R271). -/
theorem drain_of_encode {s : State} (hp : s.phase = .encode) (fuel : Nat) : drain (fuel + 1) s =
    drain fuel (finishPixel (encodePixel s.enc s.pxL s.lastL).1 (encodePixel s.enc s.pxL s.lastL).2
      (returnByte (statusByte s) s)) := by
  have hturn := perform_internal_of_encode (s := returnByte (statusByte s) s) hp
  rw [drain_succ_eq_ite, if_neg (by simp [hp]), if_neg (by simp [hp]), hturn]
  rfl

/-- Between two pixels DRAIN reads the output buffer to its end. -/
theorem drain_between_pixels : ∀ (fuel : Nat) (s : State),
    s.phase = (if s.obuf = [] then afterDrain s.fin else .emit) → s.obuf.length < fuel →
    ∃ v, drain fuel s = some (s.obuf, { s with obuf := [], phase := afterDrain s.fin, rdata := v })
  | 0, _, _, hlen => absurd hlen (Nat.not_lt_zero _)
  | fuel + 1, s, hphase, hlen => by
    cases hobuf : s.obuf with
    | nil =>
      rw [if_pos hobuf] at hphase
      refine ⟨statusByte s, ?_⟩
      rw [drain_of_drained hphase, ← hobuf, ← hphase]
      rfl
    | cons b rest =>
      have hp : s.phase = .emit := by rw [hphase, if_neg (by simp [hobuf])]
      have hrest : rest.length < fuel := by simpa [hobuf] using hlen
      obtain ⟨v, hdrain⟩ := drain_between_pixels fuel (popByte b rest (returnByte (statusByte s) s))
        (by rw [popByte_phase, returnByte_phase, hp]; rfl) hrest
      refine ⟨v, ?_⟩
      rw [drain_of_emit hp hobuf, hdrain]
      rfl

/-- In ENCODE DRAIN waits for the pixel step and reads what it emitted: one round for the block's turn, one for each byte,
and one that sees the end (R146, R271). -/
theorem drain_after_latch {s : State} (hp : s.phase = .encode) : ∃ v, drain 12 s =
    some ((encodePixel s.enc s.pxL s.lastL).2,
      { s with
        enc := (encodePixel s.enc s.pxL s.lastL).1
        pos := s.pos + 1
        fin := s.lastL
        obuf := []
        phase := afterDrain s.lastL
        rdata := v }) := by
  have hlen : (encodePixel s.enc s.pxL s.lastL).2.length ≤ 6 := encodePixel_length_le _ _ _
  rw [drain_of_encode hp]
  exact drain_between_pixels 11 (finishPixel (encodePixel s.enc s.pxL s.lastL).1 (encodePixel s.enc s.pxL s.lastL).2
    (returnByte (statusByte s) s)) rfl (by rw [finishPixel_obuf]; omega)

/-! ### An image, pixel by pixel (R363 step 6) -/

/-- The block waits for the next of the `left` pixels still to come, or is done if there is none, and no error stands. -/
structure Ready (left : Nat) (s : State) : Prop where
  phase : s.phase = afterDrain (decide (left = 0))
  pos : s.pos.toNat + left = s.npix.toNat
  k : s.k = 0
  obuf : s.obuf = []
  err : s.err = false

/-- A block that is ready for a pixel takes it, and gives what EncodePixel gives for it (R271, R363). -/
theorem Ready.push {left : Nat} {s : State} (h : Ready (left + 1) s) (p : Pixel) :
    ∃ t, (pushPixel 12 s.nch p s).bind (drain 12)
        = some ((encodePixel s.enc (delivered s.nch p) (decide (left = 0))).2, t)
      ∧ Ready left t ∧ t.nch = s.nch ∧ t.enc = (encodePixel s.enc (delivered s.nch p) (decide (left = 0))).1 := by
  have hpos := h.pos
  have hlast : atLastPixel s = decide (left = 0) := by
    rw [atLastPixel, decide_eq_decide]
    omega
  have hnext : (s.pos + 1).toNat = s.pos.toNat + 1 := toNat_add_one_of_lt (n := s.npix) (by omega)
  obtain ⟨v, hdrain⟩ := drain_after_latch (s := latched p (returnByte (statusByte s) s)) rfl
  rw [pushPixel_of_accept h.phase h.k, Option.bind_some, hdrain, ← hlast]
  exact ⟨_, rfl, ⟨congrArg afterDrain hlast, by dsimp only [latched, returnByte]; omega, rfl, rfl, h.err⟩, rfl, rfl⟩

/-- The pixels of an image, one after the other, give the fold of EncodePixel over them (R147). -/
theorem pushAll_of_ready : ∀ (pixels : List Pixel) (s : State), Ready pixels.length s →
    ∃ t, pushAll 12 s.nch pixels s = some (encodeFrom s.enc (pixels.map (delivered s.nch)), t) ∧ Ready 0 t
  | [], s, h => ⟨s, rfl, h⟩
  | p :: ps, s, h => by
    obtain ⟨t, hpush, ht, hnch, henc⟩ := h.push p
    obtain ⟨u, hrest, hu⟩ := pushAll_of_ready ps t ht
    have hlast : (ps.map (delivered s.nch)).isEmpty = decide (ps.length = 0) := by cases ps <;> rfl
    refine ⟨u, ?_, hu⟩
    rw [pushAll, ← Option.bind_assoc, hpush, Option.bind_some, ← hnch, hrest, List.map_cons, encodeFrom, hnch, hlast,
      ← henc]
    rfl

/-- START with a channel bit performs START with it as CH4 (R114, R259). -/
theorem startEncode_eq (c : Bool) (s : State) : startEncode c s = some (start { s with ch4 := c }) := by
  have hstart : (flag c <<< 1 ||| 1).getLsbD 0 = true := by cases c <;> rfl
  have hch4 : (flag c <<< 1 ||| 1).getLsbD 1 = c := by cases c <;> rfl
  have h := exec_wrCtrl_of_start hstart s
  rw [hch4] at h
  exact perform_eq _ (.wrCtrl (flag c <<< 1 ||| 1)) _ _ rfl h

/-- After START the first poll waits for CLEAR-done, so the image is pushed as from the cleared state (R270, R363). -/
theorem pushAll_of_clear {s : State} (hp : s.phase = .clear) (hnpix : s.npix ≠ 0) (n : Channels) {pixels : List Pixel}
    (hne : pixels ≠ []) : pushAll 12 n pixels s = pushAll 12 n pixels (clearCache s) := by
  obtain ⟨p, ps, rfl⟩ := List.exists_cons_of_ne_nil hne
  rw [pushAll, pushAll, pushPixel, pushPixel, poll_rdReq_of_clear hp hnpix]

/-- The block cleared for an encode is ready for the number of pixels in COUNT, with a fresh encoder (R262, R270). -/
theorem ready_clearCache_start {s : State} (hcount : s.count ≠ 0) : Ready s.count.toNat (clearCache (start s)) where
  phase := by
    have hne : s.count.toNat ≠ 0 := fun h => hcount (BitVec.eq_of_toNat_eq h)
    rw [clearCache_phase, start_npix, if_neg hcount, decide_eq_false hne]
    rfl
  pos := Nat.zero_add _
  k := rfl
  obuf := rfl
  err := rfl

/-- R363 from any state: the host reads EncodeImage of its image as delivered, and the block is done without an error. -/
theorem encodeOnBlock_eq (c : Bool) {pixels : List Pixel} (s : State) (hne : pixels ≠ []) (hlen : pixels.length < 2 ^ 32) :
    ∃ t, encodeOnBlock c pixels s = some (encodeImage (pixels.map (delivered (channelsOf c))), t) ∧ Ready 0 t := by
  have hcount : (BitVec.ofNat 32 pixels.length).toNat = pixels.length := Nat.mod_eq_of_lt hlen
  have hpos : BitVec.ofNat 32 pixels.length ≠ 0 := fun h => by
    rw [h] at hcount
    exact hne (List.length_eq_zero_iff.1 hcount.symm)
  have hready := ready_clearCache_start (s := { s with count := BitVec.ofNat 32 pixels.length, ch4 := c }) hpos
  rw [hcount] at hready
  obtain ⟨t, hpush, ht⟩ := pushAll_of_ready pixels _ hready
  refine ⟨t, ?_, ht⟩
  rw [encodeOnBlock, runEncode, setCount_eq, Option.bind_some, startEncode_eq, Option.bind_some]
  exact (pushAll_of_clear rfl hpos _ hne).trans hpush

/-- Settles O56: the image as delivered is the image, with alpha 255 with three channels. -/
theorem hostGetsTheEncodedImage : Obligations.HostGetsTheEncodedImage := by
  intro s c pixels hne hlen
  obtain ⟨t, hrun, ht⟩ := encodeOnBlock_eq c s hne hlen
  refine ⟨t, ?_, ht.phase, ht.err, ht.obuf⟩
  rw [hrun]
  cases c with
  | false => rfl
  | true => exact congrArg (fun l => some (encodeImage l, t)) (List.map_id pixels)

/-! ### The whole stream (R307) -/

/-- R363 step 8 holds of a block that is done without an error. -/
theorem finished_of_ready {s : State} (h : Ready 0 s) : finished s = some (returnByte (statusByte s) s) := by
  obtain ⟨-, -, hdone, herr, -⟩ := getLsbD_statusByte s
  have hp : s.phase = .done := h.phase
  rw [finished, regRead_status, Option.bind_some, if_pos (by rw [hdone, herr, h.err, hp]; rfl)]
  rfl

/-- The image of a channel buffer is delivered as it is: with three channels its alpha is 255 (R307). -/
theorem map_delivered_imagePixels {maxPixels : Config.MaxPixels} {d : Descriptor}
    (h : validDescriptor maxPixels d = true) {buffer : List Byte}
    (hbuffer : buffer.length = d.width * d.height * d.channels) :
    (imagePixels d buffer).map (delivered (channelsOf d.ch4)) = imagePixels d buffer := by
  obtain ⟨-, halpha, -⟩ := imagePixels_spec h hbuffer
  obtain ⟨-, -, hchannels, -⟩ := (validDescriptor_iff maxPixels d).1 h
  rcases hchannels with h3 | h4
  · refine (List.map_congr_left fun p hp => ?_).trans (List.map_id _)
    rw [Descriptor.ch4, h3]
    change { p with a := 255 } = p
    rw [← halpha h3 p hp]
  · rw [Descriptor.ch4, h4]
    exact List.map_id _

/-- The host stops with the error of the software loop (R303). -/
theorem assembleOnBlock_of_error {maxPixels : Config.MaxPixels} {allocated : Bool} {d : Descriptor} {buffer : List Byte}
    {e : HostError} (h : assembleStream maxPixels allocated d buffer = .error e) (s : State) :
    assembleOnBlock maxPixels allocated d buffer s = .error e := by
  obtain ⟨-, hcheck⟩ | ⟨-, -, hcheck⟩ | ⟨-, -, hcheck⟩ := checkRequest_cases maxPixels allocated d
  all_goals
    rw [assembleStream, hcheck] at h
    cases h
  all_goals rw [assembleOnBlock, hcheck]

/-- With a valid descriptor, a buffer and an image the host frames what it reads from the block as the software loop frames
EncodeImage (R307, R363). -/
theorem assembleOnBlock_of_valid {maxPixels : Config.MaxPixels} {d : Descriptor}
    (h : validDescriptor maxPixels d = true) {buffer : List Byte}
    (hbuffer : buffer.length = d.width * d.height * d.channels) (s : State) :
    ∃ t, assembleOnBlock maxPixels true d buffer s
        = .ok (some (frameStream d (encodeImage (imagePixels d buffer)), t)) ∧ Ready 0 t := by
  obtain ⟨hlength, -⟩ := imagePixels_spec h hbuffer
  have hcheck : checkRequest maxPixels true d = .ok () := by simp [checkRequest, h]
  have hne : imagePixels d buffer ≠ [] := List.ne_nil_of_length_pos (hlength ▸ pixelCount_pos h)
  have hcount := pixelCount_le_ceiling h
  obtain ⟨t, hrun, ht⟩ := encodeOnBlock_eq d.ch4 s hne (by omega)
  rw [encodeOnBlock, hlength, map_delivered_imagePixels h hbuffer] at hrun
  refine ⟨returnByte (statusByte t) t, ?_, ⟨ht.phase, ht.pos, ht.k, ht.obuf, ht.err⟩⟩
  rw [assembleOnBlock, hcheck]
  simp only [hrun, Option.bind_some, finished_of_ready ht, Option.map_some]

/-- Settles O60: on the block and in the software loop the same chunks stand between header and end marker. -/
theorem blockGivesTheAssembledStream : Obligations.BlockGivesTheAssembledStream := by
  refine fun maxPixels allocated d buffer s => ⟨?_, fun e he => assembleOnBlock_of_error he s⟩
  rintro hvalid rfl hbuffer
  obtain ⟨hlength, -, hbytes⟩ := imagePixels_spec hvalid hbuffer
  obtain ⟨t, hblock, ht⟩ := assembleOnBlock_of_valid hvalid hbuffer s
  exact ⟨hlength, hbytes, _, t, assembleStream_of_valid hvalid buffer, hblock, ht.phase, ht.err, ht.obuf⟩

end Sys2Proof.Machine
end
